-- ==== Sys2Proof/Word.lean ====
section
/-!
DEFINITION. The machine's word: a Cell (spec/00_scope.md R5).

A Cell is one signed integer, used both as code and as data, never split into bytes
(20_memory R39). Its width `W` is a parameter of the model, so a Cell is held as an integer and
"lies in the Cell range of width W" is a predicate.
-/

namespace Sys2Proof

/-- One signed-integer unit of memory (R12). -/
abbrev Cell := Int

/-- `CELL_MIN = -2^(W-1)` (R5). -/
def cellMin (W : Nat) : Int := -(2 ^ (W - 1) : Int)

/-- `CELL_MAX = 2^(W-1) - 1` (R5). -/
def cellMax (W : Nat) : Int := (2 ^ (W - 1) : Int) - 1

/-- `in_range_W(z)` (R10): `z` can be held in a Cell of `W` bits. -/
abbrev InCellRange (W : Nat) (z : Int) : Prop := cellMin W ≤ z ∧ z ≤ cellMax W

end Sys2Proof
end

