-- ==== Sys2Proof/Config.lean ====
section
/-!
DEFINITION. What is fixed for a machine: the two parameters of spec/00_scope.md R5 and R6, and
the loader's two open points (93_implementation_defined U10).
-/

namespace Sys2Proof

/-- `OVERFLOW_POLICY` (R6): what an `Add` or `Multiply` does whose exact result is no Cell. -/
inductive OverflowPolicy where
  /-- the step raises `ArithmeticOverflow` and writes nothing -/
  | fault
  /-- the result is reduced modulo `2^W` into the Cell range -/
  | wrap
  deriving DecidableEq, Repr

/-- The construction parameters of a machine: fixed at construction, changed by no step (R23). -/
structure Params where
  /-- `W` (R5), at least 32 -/
  cellWidth : Nat
  /-- `OVERFLOW_POLICY` (R6) -/
  overflowPolicy : OverflowPolicy
  deriving DecidableEq, Repr

/-- The width this hardware takes by default (R5). -/
def defaultCellWidth : Nat := 32

/-- The parameters this hardware takes by default: `W = 32`, policy `fault` (R5, R6). -/
def defaultParams : Params := { cellWidth := defaultCellWidth, overflowPolicy := .fault }

/-- A free value (U10): whether the text loader takes a numeral that starts with `+`.
DESIGN CHOICE, log entry 9. -/
opaque Config.loaderTakesPlus : Bool

/-- A free value (U10): whether the text loader trims the character with this code as whitespace;
asked only about characters that are neither printable ASCII nor space, tab or newline.
DESIGN CHOICE, log entry 9. -/
opaque Config.loaderTrims : Nat → Bool

end Sys2Proof
end

