-- ==== Sys2Proof/Machine/State.lean ====
section
/-!
DEFINITION. The state of the machine (spec/10_state.md R13 to R26), the ways a step ends in an
error (60_exceptions R118), and the machine after reset (R25, 70_reset_and_hazards R146).
-/

namespace Sys2Proof.Machine

/-- The one memory (R19, 20_memory R30): `length` is `L`; `cells` lists the cells that do not hold
0, as (address, Cell) pairs with addresses strictly rising. An address below `length` that is not
listed holds 0. A Cell is one integer and is never laid out in bytes (20_memory R39). -/
structure Memory where
  length : Nat
  cells : List (Nat × Cell)
  deriving DecidableEq, Repr

/-- `RecordedIO`: "a tagged log entry, either `UserInput(value)` or `Output(value)`" (R18). -/
inductive RecordedIO where
  | userInput (value : Cell)
  | output (value : Cell)
  deriving DecidableEq, Repr

/-- What the input source answers (42_io R107). -/
inductive Answer where
  | value (v : Cell)
  | fail
  deriving DecidableEq, Repr

/-- The machine's state, and beside it what a step is also a function of: the construction
parameters and the input source (R22, R23, 40_step_dispatch R96; log entries 1 and 4). -/
structure State where
  /-- construction parameters `W` and `OVERFLOW_POLICY`; the model's own field, changed by no step -/
  params : Params
  /-- instruction pointer: "address of the next instruction word to decode" (R14) -/
  ip : Nat
  /-- halted flag (R15) -/
  halted : Bool
  /-- cycle counter: instructions executed without error (R17) -/
  cycle : Nat
  /-- IO record, oldest entry first (R18) -/
  io : List RecordedIO
  /-- the memory and its length `L` (R19) -/
  mem : Memory
  /-- the values the input source will still hand out, the next one first; when none is left it
  answers `Fail` (42_io R107); the model's own field -/
  input : List Cell
  deriving DecidableEq, Repr

/-- The ways a step returns `Err(kind)` (60_exceptions R118). Each carries the `info` value its rule
names, where there is one, and `left`, the state the failing step leaves (R133). All are safe: the
spec gives the same error in the same case, and the step has no other effect than `left` shows. -/
inductive Fault where
  /-- R120: raised by the header decode of `step`; the header word is negative or selects no
  opcode. `word` is the header word. Safe. -/
  | unknownOpcode (word : Cell) (left : State)
  /-- R121: raised by the decode of `step`; memory ends inside the instruction. `ip` is the
  address of its header. Safe. -/
  | instructionDecodeFailed (ip : Nat) (left : State)
  /-- R122: raised by the fetch when `ip >= L`, by `Resolve` of a `Position` source, by
  `WriteThrough` to a `Position` destination, and by a host's inspection read. `address` is the
  offending address. Safe. -/
  | memoryOperationOutOfBounds (address : Int) (left : State)
  /-- R123: raised by the header decode of `step`; a mode digit is 2 to 9. `word` is the header
  word. Safe. -/
  | unknownParameterMode (word : Cell) (left : State)
  /-- R124: raised by `WriteThrough` in `Add`, `Multiply` and `Input`; the destination is
  `Immediate`. `literal` is the literal in the parameter. Safe. -/
  | writeParameterCannotBeImmediateMode (literal : Cell) (left : State)
  /-- R125: raised by `Input`; the input source answers `Fail`. Safe. -/
  | inputAcquisitionFailed (left : State)
  /-- R127: raised by `Add` and `Multiply` under policy `fault`; the exact result is no Cell.
  Safe. -/
  | arithmeticOverflow (left : State)
  /-- R128: raised by the guard of `step`; the machine is Halted. Safe. -/
  | stepWhileHalted (left : State)
  deriving DecidableEq, Repr

/-- Reasons to give an instruction no meaning. -/
inductive Refusal where
  /-- Raised by an arm of `exec` whose instruction has no meaning yet. No arm raises it: every
  instruction has its meaning. Safe. -/
  | notModelled (mnemonic : String)
  deriving DecidableEq, Repr

/-- The machine right after reset: construction (70_reset_and_hazards R146) on the empty image,
with the default parameters and an input source that holds nothing (log entries 1, 3 and 4). -/
def State.reset : State where
  params := defaultParams
  ip := 0
  halted := false
  cycle := 0
  io := []
  mem := { length := 0, cells := [] }
  input := []

end Sys2Proof.Machine
end

