-- ==== Sys2Proof/Machine/Ops.lean ====
section
/-!
DEFINITION. The named operations: memory (spec/20_memory.md R32 to R35), the IO record
(10_state R18), the input source (42_io R107), raising an error (60_exceptions R132, R133) and
the advance that ends a successful step (40_step_dispatch R90).
-/

namespace Sys2Proof.Machine

/-! ## Memory, unchecked -/

/-- What an address that is not listed holds: 0 (log entry 5). -/
abbrev unlistedCell : Cell := 0

/-- The cell that a list of pairs holds for address `a`. -/
def lookupCell : List (Nat × Cell) → Nat → Cell
  | [], _ => unlistedCell
  | (k, v) :: rest, a => if k = a then v else lookupCell rest a

/-- Put `v` before `rest` as the pair of address `a`, unless it is what an unlisted address holds. -/
def consCell (a : Nat) (v : Cell) (rest : List (Nat × Cell)) : List (Nat × Cell) :=
  if v = unlistedCell then rest else (a, v) :: rest

/-- The list of pairs after address `a` is overwritten by `v`. -/
def storeCell : List (Nat × Cell) → Nat → Cell → List (Nat × Cell)
  | [], a, v => consCell a v []
  | (k, u) :: rest, a, v =>
    if a < k then consCell a v ((k, u) :: rest)
    else if a = k then consCell a v rest
    else (k, u) :: storeCell rest a v

/-- The cell at address `a`. -/
def Memory.read (m : Memory) (a : Nat) : Cell := lookupCell m.cells a

/-- The memory after the cell at address `a` is overwritten by `v`; the length stays (R31). -/
def Memory.write (m : Memory) (a : Nat) (v : Cell) : Memory :=
  { m with cells := storeCell m.cells a v }

/-- `n` cells from address `a` on, lowest address first. -/
def Memory.cellsFrom (m : Memory) : Nat → Nat → List Cell
  | 0, _ => []
  | n + 1, a => m.read a :: m.cellsFrom n (a + 1)

/-- `pull(s)` on the stream with cursor `c`: the cell there as memory holds it at that moment, and the
cursor moved on; none when the stream is exhausted (20_memory R35). -/
def Memory.pull (m : Memory) (c : Nat) : Option (Cell × Nat) :=
  if c < m.length then some (m.read c, c + 1) else none

/-- The canonical form of a list of pairs: addresses strictly rising from `lo` on and below `hi`,
and no pair that holds what an unlisted address holds. -/
def canonicalCells (hi : Nat) : Nat → List (Nat × Cell) → Bool
  | _, [] => true
  | lo, (k, v) :: rest =>
    decide (lo ≤ k) && decide (k < hi) && decide (v ≠ unlistedCell) && canonicalCells hi (k + 1) rest

/-- The memory is in canonical form and lists only addresses below `L`. -/
def Memory.wf (m : Memory) : Bool := canonicalCells m.length 0 m.cells

/-- The pairs of an image laid out from address `a` on. -/
def imageCells : Nat → List Cell → List (Nat × Cell)
  | _, [] => []
  | a, c :: cs => consCell a c (imageCells (a + 1) cs)

/-- Memory constructed from "a literal list of Cells": `L` its length, `mem[a]` its element `a`
(R38). -/
def Memory.ofImage (P : List Cell) : Memory :=
  { length := P.length, cells := imageCells 0 P }

/-! ## Updates of the state, one field each -/

def State.setMem (s : State) (m : Memory) : State := { s with mem := m }

def State.setInput (s : State) (q : List Cell) : State := { s with input := q }

/-- The write that `Halt` makes (43_halt R115). -/
def State.setHalted (s : State) : State := { s with halted := true }

/-- `IoAppend(e)` (10_state R18). -/
def State.ioAppend (s : State) (e : RecordedIO) : State := { s with io := s.io ++ [e] }

/-- `ip <- ip + adv`, then `cycle <- cycle + 1` (40_step_dispatch R90). -/
def State.advance (s : State) (adv : Nat) : State :=
  { s with ip := s.ip + adv, cycle := s.cycle + 1 }

/-! ## Raising an error and ending a step -/

/-- `raise E`: the step ends with this error; nothing is saved, no mode changes, no handler is
entered; the state it leaves is the state reached so far (60_exceptions R132, R133). -/
def raise {α : Type} (E : State → Fault) (s : State) : Except Fault α := .error (E s)

/-- The end of an executed instruction: advance and count it, or end with its error
(40_step_dispatch R90, R92). -/
def finish (adv : Nat) (r : Except Fault State) : Host.Outcome State Fault Refusal :=
  match r with
  | .ok s => .next (s.advance adv)
  | .error f => .fault f

/-! ## Memory, with the bounds check of every access -/

/-- An address is valid when `0 <= a < L`; a negative Cell never is (20_memory R32). -/
abbrev State.ValidAddress (s : State) (a : Int) : Prop := 0 ≤ a ∧ a < (s.mem.length : Int)

/-- `MemRead(addr, 1)` (20_memory R33). -/
def memRead (s : State) (a : Int) : Except Fault Cell :=
  if s.ValidAddress a then .ok (s.mem.read a.toNat)
  else raise (.memoryOperationOutOfBounds a) s

/-- `MemWrite(addr, 1, v)` (20_memory R34). -/
def memWrite (s : State) (a : Int) (v : Cell) : Except Fault State :=
  if s.ValidAddress a then .ok (s.setMem (s.mem.write a.toNat v))
  else raise (.memoryOperationOutOfBounds a) s

/-- `MemStream(addr)`: what pulling from `addr` to the end of memory yields; no cell changes between
the creation of a step's stream and its last pull (20_memory R35, R53). -/
def memStream (s : State) (a : Int) : Except Fault (List Cell) :=
  if s.ValidAddress a then .ok (s.mem.cellsFrom (s.mem.length - a.toNat) a.toNat)
  else raise (.memoryOperationOutOfBounds a) s

/-! ## The input source -/

/-- `InputFetch()`: the front value is removed and answered, or `Fail` when there is none
(42_io R107). -/
def inputFetch (s : State) : Answer × State :=
  match s.input with
  | [] => (.fail, s)
  | v :: rest => (.value v, s.setInput rest)

end Sys2Proof.Machine
end

