-- ==== Sys2Proof/Machine/Flags.lean ====
section
/-!
DEFINITION. The ALU's result (spec/41_arithmetic.md R98 to R100). The machine has no condition
flags (R104): the only thing computed beside a result is whether it overflows.
-/

namespace Sys2Proof.Machine

/-- `wrap_W(z) = ((z + 2^(W-1)) mod 2^W) - 2^(W-1)`, `mod` the floor remainder (00_scope R10). -/
def wrapCell (W : Nat) (z : Int) : Cell :=
  (z + (2 ^ (W - 1) : Int)) % (2 ^ W : Int) - (2 ^ (W - 1) : Int)

/-- The Cell that `AluResult(z)` returns, none where it raises `ArithmeticOverflow` (R100). -/
def aluCell (p : Params) (z : Int) : Option Cell :=
  if InCellRange p.cellWidth z then some z
  else
    match p.overflowPolicy with
    | .fault => none
    | .wrap => some (wrapCell p.cellWidth z)

/-- `AluResult(z)`, `z` the exact result (R100). -/
def aluResult (s : State) (z : Int) : Except Fault Cell :=
  match aluCell s.params z with
  | some r => .ok r
  | none => raise .arithmeticOverflow s

end Sys2Proof.Machine
end

