-- ==== Sys2Proof/Syntax.lean ====
section
/-!
DEFINITION. Decoded instructions (spec/30_encoding.md R60, R62, R66, R67): the opcodes, the
parameter modes, parameters and the five instructions; and the statements of the assembler
notation (R76).
-/

namespace Sys2Proof

/-- `ParameterMode`: "enumeration {Position, Immediate}" (R62). -/
inductive Mode where
  | position
  | immediate
  deriving DecidableEq, Repr

/-- A decoded operand (R66). -/
inductive Parameter where
  /-- the operand is the cell at this address -/
  | position (address : Cell)
  /-- the operand is this value -/
  | immediate (value : Cell)
  deriving DecidableEq, Repr

/-- The five operation selectors (R60). -/
inductive Opcode where
  | add
  | multiply
  | input
  | output
  | halt
  deriving DecidableEq, Repr

/-- An Instruction: "a tagged value over the supported opcodes, each carrying its already-wrapped
Parameters" (R67). `p1`, `p2`, `pSrc` are sources, `pDest` is a destination. -/
inductive Instr where
  | add (p1 p2 pDest : Parameter)
  | multiply (p1 p2 pDest : Parameter)
  | input (pDest : Parameter)
  | output (pSrc : Parameter)
  | halt
  deriving DecidableEq, Repr

/-- The mode of a parameter. -/
def Parameter.mode : Parameter → Mode
  | .position _ => .position
  | .immediate _ => .immediate

/-- The raw parameter word: the whole Cell, address or literal (R75). -/
def Parameter.raw : Parameter → Cell
  | .position a => a
  | .immediate v => v

/-- The opcode of an instruction. -/
def Instr.opcode : Instr → Opcode
  | .add _ _ _ => .add
  | .multiply _ _ _ => .multiply
  | .input _ => .input
  | .output _ => .output
  | .halt => .halt

/-- The parameters in address order, parameter 0 first (R67). -/
def Instr.parameters : Instr → List Parameter
  | .add p1 p2 pDest => [p1, p2, pDest]
  | .multiply p1 p2 pDest => [p1, p2, pDest]
  | .input pDest => [pDest]
  | .output pSrc => [pSrc]
  | .halt => []

/-- One statement of the assembler notation: an instruction, or `DATA v` (R76). -/
inductive AsmStatement where
  | instruction (i : Instr)
  | data (v : Cell)
  deriving DecidableEq, Repr

end Sys2Proof
end

