-- ==== Sys2Proof/Machine/Operands.lean ====
section
/-!
DEFINITION. Operand access: the two operand forms as a source and as a destination
(spec/40_step_dispatch.md R86 to R89).
-/

namespace Sys2Proof.Machine

/-- `Resolve(p)`: the value of a source parameter (R86). -/
def resolve (s : State) (p : Parameter) : Except Fault Cell :=
  match p with
  | .position a => memRead s a
  | .immediate v => .ok v

/-- `WriteThrough(p, v)`: store through a destination parameter, the mode checked before the
address (R87). -/
def writeThrough (s : State) (p : Parameter) (v : Cell) : Except Fault State :=
  match p with
  | .immediate x => raise (.writeParameterCannotBeImmediateMode x) s
  | .position a => memWrite s a v

end Sys2Proof.Machine
end

