-- ==== Sys2Proof/Machine/Arithmetic.lean ====
section
/-!
DEFINITION. `Add` and `Multiply` (spec/41_arithmetic.md R101, R102).
-/

namespace Sys2Proof.Machine

/-- What `Add` and `Multiply` share: resolve `p1`, resolve `p2`, form the exact result, bring it
back to a Cell, write it through `pDest`; the first error ends it (R88, R101, R102). -/
def arithmetic (f : Int → Int → Int) (p1 p2 pDest : Parameter) (s : State) : Except Fault State :=
  match resolve s p1 with
  | .error e => .error e
  | .ok a =>
    match resolve s p2 with
    | .error e => .error e
    | .ok b =>
      match aluResult s (f a b) with
      | .error e => .error e
      | .ok r => writeThrough s pDest r

/-- `ExecAdd`, advance 4 (R101). -/
def execAdd (p1 p2 pDest : Parameter) (s : State) : Host.Outcome State Fault Refusal :=
  finish 4 (arithmetic (fun a b => a + b) p1 p2 pDest s)

/-- `ExecMultiply`, advance 4 (R102). -/
def execMultiply (p1 p2 pDest : Parameter) (s : State) : Host.Outcome State Fault Refusal :=
  finish 4 (arithmetic (fun a b => a * b) p1 p2 pDest s)

end Sys2Proof.Machine
end

