-- ==== Sys2Proof/Machine/Halt.lean ====
section
/-!
DEFINITION. `Halt` (spec/43_halt.md R115).
-/

namespace Sys2Proof.Machine

/-- `ExecHalt`: `halted <- true`, advance 0; the step still counts as executed (R115, R90). -/
def execHalt (s : State) : Host.Outcome State Fault Refusal := finish 0 (.ok s.setHalted)

end Sys2Proof.Machine
end

