-- ==== Sys2Proof/Machine/InputOutput.lean ====
section
/-!
DEFINITION. `Input` and `Output` (spec/42_io.md R109, R111).
-/

namespace Sys2Proof.Machine

/-- Obtain a value, record it, store it. A write that fails leaves the value consumed and recorded
(R109, R110). -/
def acquire (pDest : Parameter) (s : State) : Except Fault State :=
  match inputFetch s with
  | (.fail, s1) => raise .inputAcquisitionFailed s1
  | (.value v, s1) => writeThrough (s1.ioAppend (.userInput v)) pDest v

/-- `ExecInput`, advance 2 (R109). -/
def execInput (pDest : Parameter) (s : State) : Host.Outcome State Fault Refusal :=
  finish 2 (acquire pDest s)

/-- Resolve the source and record its value (R111). -/
def emit (pSrc : Parameter) (s : State) : Except Fault State :=
  match resolve s pSrc with
  | .error e => .error e
  | .ok v => .ok (s.ioAppend (.output v))

/-- `ExecOutput`, advance 2 (R111). -/
def execOutput (pSrc : Parameter) (s : State) : Host.Outcome State Fault Refusal :=
  finish 2 (emit pSrc s)

end Sys2Proof.Machine
end

