-- ==== Sys2Proof/Machine/Dispatch.lean ====
section
/-!
DEFINITION. The instruction dispatch multiplexer (spec/40_step_dispatch.md R84, R85): one arm per
instruction, no default arm.
-/

namespace Sys2Proof.Machine

def exec (i : Instr) (s : State) : Host.Outcome State Fault Refusal :=
  match i with
  | .add p1 p2 pDest => Sys2Proof.Machine.execAdd p1 p2 pDest s
  | .multiply p1 p2 pDest => Sys2Proof.Machine.execMultiply p1 p2 pDest s
  | .input pDest => Sys2Proof.Machine.execInput pDest s
  | .output pSrc => Sys2Proof.Machine.execOutput pSrc s
  | .halt => Sys2Proof.Machine.execHalt s

end Sys2Proof.Machine
end

