-- ==== Sys2Proof/WellFormed.lean ====
section
/-!
DEFINITION. Well-formed instructions: those whose words exist in a memory of `W`-bit Cells.

The one check is that every raw parameter word is a Cell (spec/30_encoding.md R75, R5). An
`Immediate` destination is well formed: it decodes and faults only in execution (R73).
-/

namespace Sys2Proof

/-- The raw word of the parameter is a Cell of `W` bits. -/
def Parameter.wellFormed (W : Nat) (p : Parameter) : Bool := decide (InCellRange W p.raw)

/-- Every raw parameter word of the instruction is a Cell of `W` bits. -/
def Instr.wellFormed (W : Nat) (i : Instr) : Bool := i.parameters.all (Parameter.wellFormed W)

end Sys2Proof
end

