-- ==== Sys2Proof/Decode.lean ====
section
/-!
DEFINITION. The parameter-mode extractor and the instruction decoder (spec/30_encoding.md R55 to
R75), after them the encoder and the assembler notation (R76, R77), and the reading of the opcode
table's bit numbers.

The fields of a header word are decimal digits (R57). The decoder takes the stream as the list of
the cells from `ip` to the end of memory, as R70 allows.
-/

namespace Sys2Proof

/-- The errors the decoder raises (R70). -/
inductive DecodeError where
  /-- the stream has no word where one is needed (R56, R65) -/
  | instructionDecodeFailed
  /-- the header word is negative or its opcode digits name nothing (R58, R60) -/
  | unknownOpcode (word : Cell)
  /-- a mode digit of the header word is 2 to 9 (R62, R63) -/
  | unknownParameterMode (word : Cell)
  deriving DecidableEq, Repr

/-! ## The header word -/

/-- Opcode decode: the instruction that the two low decimal digits select (R60). -/
def Opcode.ofNumber : Nat → Option Opcode
  | 1 => some .add
  | 2 => some .multiply
  | 3 => some .input
  | 4 => some .output
  | 99 => some .halt
  | _ => none

/-- Mode decode of one decimal digit (R62). -/
def Mode.ofDigit : Nat → Option Mode
  | 0 => some .position
  | 1 => some .immediate
  | _ => none

/-- The loop of `decode_all` (R61), on fuel; fuel `M` is enough, as `M` shrinks in every turn. -/
def decodeModes : Nat → Nat → Option (List Mode)
  | 0, _ => some []
  | fuel + 1, M =>
    if M = 0 then some []
    else
      match Mode.ofDigit (M % 10) with
      | none => none
      | some m =>
        match decodeModes fuel (M / 10) with
        | none => none
        | some ms => some (m :: ms)

/-- `decode_all(M)`: the modes of the mode string, least significant digit first; none where a
digit is no mode (R61). -/
def decodeAll (M : Nat) : Option (List Mode) := decodeModes M M

/-- Header decode in the order of R59: sign, opcode, then every mode digit. -/
def decodeHeader (w : Cell) : Except DecodeError (Opcode × List Mode) :=
  if w < 0 then .error (.unknownOpcode w)
  else
    match Opcode.ofNumber (w.toNat % 100) with
    | none => .error (.unknownOpcode w)
    | some op =>
      match decodeAll (w.toNat / 100) with
      | none => .error (.unknownParameterMode w)
      | some modes => .ok (op, modes)

/-! ## Parameters and the whole decoder -/

/-- Parameter count by opcode alone (R55, R64). -/
def Opcode.paramCount : Opcode → Nat
  | .add => 3
  | .multiply => 3
  | .input => 1
  | .output => 1
  | .halt => 0

/-- Length in cells: 1 + parameter count (R68). -/
def Instr.length (i : Instr) : Nat := 1 + i.opcode.paramCount

/-- Pull `n` raw words, lowest address first; none where too few remain (R65). -/
def pullWords : Nat → List Cell → Option (List Cell)
  | 0, _ => some []
  | _ + 1, [] => none
  | n + 1, c :: cs =>
    match pullWords n cs with
    | none => none
    | some rs => some (c :: rs)

/-- Wrap raw word `r` as parameter `k`: its mode digit, `Position` where there is none (R63, R66). -/
def wrapParameter (modes : List Mode) (k : Nat) (r : Cell) : Parameter :=
  match modes.getD k .position with
  | .position => .position r
  | .immediate => .immediate r

/-- Assemble the instruction from its parameters, `p k` being parameter `k` (R67). -/
def assembleInstr (op : Opcode) (p : Nat → Parameter) : Instr :=
  match op with
  | .add => .add (p 0) (p 1) (p 2)
  | .multiply => .multiply (p 0) (p 1) (p 2)
  | .input => .input (p 0)
  | .output => .output (p 0)
  | .halt => .halt

/-- `Decode(s)`: the instruction at the front of the stream and its length, or the first error in
the order of R70. -/
def decode (s : List Cell) : Except DecodeError (Instr × Nat) :=
  match s with
  | [] => .error .instructionDecodeFailed
  | w :: rest =>
    match decodeHeader w with
    | .error e => .error e
    | .ok (op, modes) =>
      match pullWords op.paramCount rest with
      | none => .error .instructionDecodeFailed
      | some raws =>
        .ok (assembleInstr op (fun k => wrapParameter modes k (raws.getD k 0)), 1 + op.paramCount)

/-! ## The encoder and the assembler notation -/

/-- The two-digit number of an opcode (R60). -/
def Opcode.number : Opcode → Nat
  | .add => 1
  | .multiply => 2
  | .input => 3
  | .output => 4
  | .halt => 99

/-- The decimal digit of a mode (R62). -/
def Mode.digit : Mode → Nat
  | .position => 0
  | .immediate => 1

/-- The mode string of a list of modes, mode `k` in decimal digit `k` (R57). -/
def modeString : List Mode → Nat
  | [] => 0
  | m :: ms => m.digit + 10 * modeString ms

/-- The canonical header word `OP + 100*m0 + 1000*m1 + 10000*m2` (R71). -/
def Instr.headerWord (i : Instr) : Nat :=
  i.opcode.number + 100 * modeString (i.parameters.map Parameter.mode)

/-- The canonical encoding: the header word, then the raw parameter words (R77). -/
def encode (i : Instr) : List Cell := (i.headerWord : Cell) :: i.parameters.map Parameter.raw

/-- The cells of one assembler statement (R77). -/
def AsmStatement.cells : AsmStatement → List Cell
  | .instruction i => encode i
  | .data v => [v]

/-- A program: its statements at consecutive addresses from 0, in the order written (R76). -/
def assembleProgram (p : List AsmStatement) : List Cell := p.flatMap AsmStatement.cells

/-- An operand as written: `[a]` or `#v` (R76). -/
def Parameter.assembly : Parameter → String
  | .position a => "[" ++ toString a ++ "]"
  | .immediate v => "#" ++ toString v

/-- The mnemonic as written (R76). -/
def Opcode.assembly : Opcode → String
  | .add => "ADD"
  | .multiply => "MULTIPLY"
  | .input => "INPUT"
  | .output => "OUTPUT"
  | .halt => "HALT"

/-- The instruction as written: the mnemonic and its operands, parted by commas (R76). -/
def Instr.assembly (i : Instr) : String :=
  match i.parameters with
  | [] => i.opcode.assembly
  | ps => i.opcode.assembly ++ " " ++ ", ".intercalate (ps.map Parameter.assembly)

/-- The statement as written (R76). -/
def AsmStatement.assembly : AsmStatement → String
  | .instruction i => i.assembly
  | .data v => "DATA " ++ toString v

/-! ## The opcode table's bit numbers -/

/-- The longest instruction has 4 cells (R74). -/
def maxInstrLength : Nat := 4

/-- Cell `k` of an instruction given as one number whose bit 0 is the least significant bit of the
first word: 32 bits read as a two's-complement integer (R5; log entry 6). -/
def tableCell (nbits w k : Nat) : Cell :=
  (BitVec.ofNat defaultCellWidth ((w % 2 ^ nbits) / 2 ^ (defaultCellWidth * k))).toInt

/-- The cells of an instruction given as one number; bits above `nbits` are 0. -/
def tableCells (nbits w : Nat) : List Cell :=
  (List.range maxInstrLength).map (tableCell nbits w)

/-- The instruction the decoder reads from an instruction whose bits are `w`. -/
def decodeTableWord (nbits w : Nat) : Option Instr :=
  match decode (tableCells nbits w) with
  | .ok (i, _) => some i
  | .error _ => none

end Sys2Proof
end

