-- ==== Sys2Proof/Machine/Fetch.lean ====
section
/-!
DEFINITION. Fetching and decoding the instruction at `ip` (spec/40_step_dispatch.md R81 to R83),
and placing an instruction's cells where the next fetch finds them.
-/

namespace Sys2Proof.Machine

/-- The error a step returns for an error of the decoder, with the `info` value of 60_exceptions
R120, R121 and R123. Decode changes nothing, so the state is left as it was (R83). -/
def decodeFault (e : DecodeError) (s : State) : Fault :=
  match e with
  | .instructionDecodeFailed => .instructionDecodeFailed s.ip s
  | .unknownOpcode w => .unknownOpcode w s
  | .unknownParameterMode w => .unknownParameterMode w s

/-- Guard, fetch and decode: the instruction this step executes, or the error that ends the step
(R81, R82, R83). -/
def fetchInstr (s : State) : Except Fault Instr :=
  if s.halted then raise .stepWhileHalted s
  else
    match memStream s s.ip with
    | .error f => .error f
    | .ok cells =>
      match decode cells with
      | .error e => raise (decodeFault e) s
      | .ok (i, _) => .ok i

/-- Memory with `cs` stored from address `a` on, made long enough to hold them: the load of an
image from outside the machine (log entry 3). -/
def Memory.place (m : Memory) (a : Nat) : List Cell → Memory
  | [] => m
  | c :: cs => Memory.place ({ m with length := max m.length (a + 1) }.write a c) (a + 1) cs

/-- The state with `cs` stored at `ip` and the machine Running, so that the next step decodes `cs`. -/
def State.withCellsAtIp (s : State) (cs : List Cell) : State :=
  { s with mem := s.mem.place s.ip cs, halted := false }

end Sys2Proof.Machine
end

