-- ==== Sys2Proof/Machine/Step.lean ====
section
/-!
DEFINITION. The step transaction (spec/40_step_dispatch.md R80): guard, fetch, decode, dispatch,
execute, advance.
-/

namespace Sys2Proof.Machine

/-- `Step()` (R80). The advance and the cycle count are part of each instruction's meaning
(`finish`). -/
def step (s : State) : Host.Outcome State Fault Refusal :=
  match fetchInstr s with
  | .error f => .fault f
  | .ok i => exec i s

/-- The state with the instruction whose bits are `w` stored at `ip`, as `decodeTableWord` reads it:
`step` of it fetches and runs that instruction (log entries 3 and 6). -/
def State.withFetchWord (s : State) (nbits w : Nat) : State :=
  s.withCellsAtIp (tableCells nbits w)

end Sys2Proof.Machine
end

