-- ==== Sys2Proof/Machine/Loader.lean ====
section
/-!
DEFINITION. Loading a program image from text (spec/70_reset_and_hazards.md R150; 30_encoding R78):
the host's duty, which gives `construct` its image.
-/

namespace Sys2Proof.Machine

/-- The text split at every occurrence of `sep`, in order. -/
def splitAtChar (sep : Char) : List Char → List (List Char)
  | [] => [[]]
  | c :: cs =>
    if c = sep then [] :: splitAtChar sep cs
    else
      match splitAtChar sep cs with
      | [] => [[c]]
      | t :: ts => (c :: t) :: ts

/-- Whether the loader trims this character: space, tab and newline are trimmed, printable ASCII is
not, and any other character is as the loader chooses (R150, U10). -/
def loaderTrims (c : Char) : Bool :=
  if c = ' ' || c = '\t' || c = '\n' then true
  else if 33 ≤ c.toNat && c.toNat ≤ 126 then false
  else Config.loaderTrims c.toNat

/-- The token without leading and trailing whitespace. -/
def trimToken (t : List Char) : List Char :=
  ((t.dropWhile loaderTrims).reverse.dropWhile loaderTrims).reverse

/-- The value of a decimal digit. -/
def digitValue (c : Char) : Option Nat :=
  if '0'.toNat ≤ c.toNat && c.toNat ≤ '9'.toNat then some (c.toNat - '0'.toNat) else none

/-- The value of the digits read on from `acc`; none where a character is no digit. -/
def digitsFrom : Nat → List Char → Option Nat
  | acc, [] => some acc
  | acc, c :: cs =>
    match digitValue c with
    | none => none
    | some d => digitsFrom (10 * acc + d) cs

/-- One or more decimal digits. -/
def parseDigits : List Char → Option Nat
  | [] => none
  | c :: cs => digitsFrom 0 (c :: cs)

/-- A decimal integer numeral: optional `-`, then one or more digits (R150). -/
def parseInteger (t : List Char) : Option Int :=
  match t with
  | [] => none
  | c :: cs =>
    if c = '-' then (parseDigits cs).map (fun n => -(n : Int))
    else (parseDigits (c :: cs)).map (fun n => (n : Int))

/-- A numeral the loader takes: as R150 has it, and with a leading `+` as the loader chooses (U10). -/
def parseNumeral (t : List Char) : Option Int :=
  match t with
  | [] => none
  | c :: cs =>
    if c = '+' then
      if Config.loaderTakesPlus then (parseDigits cs).map (fun n => (n : Int)) else none
    else parseInteger (c :: cs)

/-- The Cell a token gives, none where it is discarded. -/
def tokenCell (p : Params) (t : List Char) : Option Cell :=
  match parseNumeral (trimToken t) with
  | none => none
  | some z => if InCellRange p.cellWidth z then some z else none

/-- `LoadText(text)`: the image; a discarded token leaves no hole (R150). -/
def loadText (p : Params) (text : List Char) : List Cell :=
  (splitAtChar ',' text).filterMap (tokenCell p)

end Sys2Proof.Machine
end

