-- ==== Sys2Proof/Machine/Faults.lean ====
section
/-!
DEFINITION. What an error carries: the state it leaves, its code and its info value
(spec/60_exceptions.md R118, R119, R133), and the error port of a step's result.
-/

namespace Sys2Proof.Machine

/-- The state the failing step leaves (R133). -/
def Fault.left : Fault → State
  | .unknownOpcode _ s => s
  | .instructionDecodeFailed _ s => s
  | .memoryOperationOutOfBounds _ s => s
  | .unknownParameterMode _ s => s
  | .writeParameterCannotBeImmediateMode _ s => s
  | .inputAcquisitionFailed s => s
  | .arithmeticOverflow s => s
  | .stepWhileHalted s => s

/-- The code of the error's kind (R118). -/
def Fault.code : Fault → Nat
  | .unknownOpcode _ _ => 1
  | .instructionDecodeFailed _ _ => 2
  | .memoryOperationOutOfBounds _ _ => 3
  | .unknownParameterMode _ _ => 4
  | .writeParameterCannotBeImmediateMode _ _ => 5
  | .inputAcquisitionFailed _ => 6
  | .arithmeticOverflow _ => 7
  | .stepWhileHalted _ => 8

/-- The `info` value (R120 to R128), 0 where the rule says none. -/
def Fault.info : Fault → Int
  | .unknownOpcode w _ => w
  | .instructionDecodeFailed ip _ => ip
  | .memoryOperationOutOfBounds a _ => a
  | .unknownParameterMode w _ => w
  | .writeParameterCannotBeImmediateMode x _ => x
  | .inputAcquisitionFailed _ => 0
  | .arithmeticOverflow _ => 0
  | .stepWhileHalted _ => 0

/-- The error port of a step's result: code and info, code 0 for no error (R119). The spec names `info`
for errors alone; that it is 0 when a step returns `Ok` is the model's: DESIGN CHOICE, log entry 14. A
refusal is no result of the hardware's, and shows nothing there. -/
def errorPort : Host.Outcome State Fault Refusal → Option (Nat × Int)
  | .next _ => some (0, 0)
  | .fault f => some (f.code, f.info)
  | .refused _ => none

end Sys2Proof.Machine
end

