-- ==== Sys2Proof/Machine/HostPort.lean ====
section
/-!
DEFINITION. The host's transactions with the core (spec/70_reset_and_hazards.md R146, R151, R155,
R161; 20_memory R54; 10_state R20; 42_io R107, R108, R112): construction, status, inspection, the
input source, and the values of the IO record.
-/

namespace Sys2Proof.Machine

/-! ## Construction -/

/-- `construct(P)`, the machine's reset: on the image `P`, with its parameters and a fresh input
source (R146). -/
def construct (p : Params) (P : List Cell) (source : List Cell) : State where
  params := p
  ip := 0
  halted := false
  cycle := 0
  io := []
  mem := Memory.ofImage P
  input := source

/-- A legal width and a legal image: `W >= 32`, every element a Cell, `L <= 2^(W-1)` (00_scope R5,
R7; R151). -/
def imageLegal (p : Params) (P : List Cell) : Bool :=
  decide (32 ≤ p.cellWidth) && decide (P.length ≤ 2 ^ (p.cellWidth - 1)) &&
    P.all (fun c => decide (InCellRange p.cellWidth c))

/-! ## Status and inspection -/

/-- The executor's two states (10_state R16). -/
inductive RunState where
  | running
  | halted
  deriving DecidableEq, Repr

/-- `Running` is `halted = false`, `Halted` is `halted = true` (10_state R16). -/
def State.runState (s : State) : RunState := if s.halted then .halted else .running

/-- The host-visible status S0 to S4 (10_state R20). -/
structure Status where
  ip : Nat
  halted : Bool
  cycle : Nat
  io : List RecordedIO
  length : Nat
  deriving DecidableEq, Repr

/-- Status read (R155). -/
def State.status (s : State) : Status :=
  { ip := s.ip, halted := s.halted, cycle := s.cycle, io := s.io, length := s.mem.length }

/-- `read_slot(a)` as the host invokes it (20_memory R54). -/
def readSlot (s : State) (a : Int) : Except Fault Cell := memRead s a

/-- `read_stream_from(a)` as the host invokes it (20_memory R54). -/
def readStreamFrom (s : State) (a : Int) : Except Fault (List Cell) := memStream s a

/-! ## The input source -/

/-- What a collaborator answers that has the integer `z` to give: what is no Cell becomes `Fail`
(42_io R108). -/
def answerOfInteger (p : Params) (z : Int) : Answer :=
  if InCellRange p.cellWidth z then .value z else .fail

/-- The values a script of integers hands out before its first `Fail` (42_io R107, R108). DESIGN
CHOICE, log entry 13: the integer that is no Cell ends the script, and every later one is dropped. -/
def scriptedSource (p : Params) (zs : List Int) : List Cell :=
  zs.takeWhile (fun z => decide (InCellRange p.cellWidth z))

/-- The input source obtains more values between two steps: after a `Fail` it may then answer
(60_exceptions R125, R135). DESIGN CHOICE, log entry 13: values supplied before a `Fail` is seen follow
those already there with no `Fail` between. -/
def State.supplyInput (s : State) (zs : List Int) : State :=
  s.setInput (s.input ++ scriptedSource s.params zs)

/-! ## The IO record as the host reads it -/

/-- The value of an entry. -/
def RecordedIO.value : RecordedIO → Cell
  | .userInput v => v
  | .output v => v

/-- The value of a `UserInput` entry. -/
def RecordedIO.inputValue : RecordedIO → Option Cell
  | .userInput v => some v
  | .output _ => none

/-- The value of an `Output` entry. -/
def RecordedIO.outputValue : RecordedIO → Option Cell
  | .userInput _ => none
  | .output v => some v

/-- The values obtained by `Input`, in execution order (42_io R114). -/
def inputValues (io : List RecordedIO) : List Cell := io.filterMap RecordedIO.inputValue

/-- The values produced by `Output`, in execution order (42_io R112). -/
def outputValues (io : List RecordedIO) : List Cell := io.filterMap RecordedIO.outputValue

/-- The output mirror: what was output between an earlier and a later state (R155). -/
def mirroredOutput (earlier later : State) : List Cell :=
  outputValues (later.io.drop earlier.io.length)

end Sys2Proof.Machine
end

