-- ==== Sys2Proof/Machine/Run.lean ====
section
/-!
DEFINITION. The step as a function of a state and an answer (spec/40_step_dispatch.md R96), and the
driver's loop with the end of a run (70_reset_and_hazards R158, R159, R163).
-/

namespace Sys2Proof.Machine

/-! ## The step transaction as the spec types it -/

/-- The state after a step from `s`: the next state, or the one the failing step leaves
(60_exceptions R133). -/
def stateAfter (s : State) : Host.Outcome State Fault Refusal → State
  | .next t => t
  | .fault f => f.left
  | .refused _ => s

/-- The error a step returns, none for `Ok`. -/
def faultOf : Host.Outcome State Fault Refusal → Option Fault
  | .next _ => none
  | .fault f => some f
  | .refused _ => none

/-- The result of a step: `Ok` or `Err`, the state, and whether the answer was used up (R96). -/
structure Transaction where
  error : Option Fault
  state : State
  consumed : Bool
  deriving DecidableEq, Repr

/-- The input source that gives this one answer. -/
def sourceOf : Answer → List Cell
  | .value v => [v]
  | .fail => []

/-- `step : State x Answer -> (Ok | Err(kind)) x State x consumed` (R96): the step taken with a
source that gives `ans`. -/
def stepAnswering (ans : Answer) (s : State) : Transaction :=
  let before := s.setInput (sourceOf ans)
  let after := stateAfter before (step before)
  { error := faultOf (step before)
    state := after
    consumed := decide (after.input ≠ before.input) }

/-! ## The driver -/

/-- How a driven run stands: ended Halted, ended Faulted (R159), or left by the driver at its cycle
ceiling (R163). -/
inductive RunEnd where
  /-- a step executed `Halt`: the only successful end -/
  | halted (final : State)
  /-- a step returned an error: no successful run -/
  | faulted (f : Fault)
  /-- the ceiling is reached and the machine is still Running -/
  | ceiling (s : State)
  /-- a step was refused: no instruction of this model is -/
  | refused (r : Refusal)
  deriving DecidableEq, Repr

/-- `while not halted: step()`, any error ending the run (R158), with a ceiling on the number of
steps (R163). -/
def run : Nat → State → RunEnd
  | 0, s => if s.halted then .halted s else .ceiling s
  | n + 1, s =>
    if s.halted then .halted s
    else
      match step s with
      | .next t => run n t
      | .fault f => .faulted f
      | .refused r => .refused r

/-- A ceiling no run reaches: `L div 2 + 1` steps (40_step_dispatch R93). -/
def stepBound (s : State) : Nat := s.mem.length / 2 + 1

/-- `Run()` (R158), with the bound of 40_step_dispatch R93 as its ceiling. -/
def runToEnd (s : State) : RunEnd := run (stepBound s) s

end Sys2Proof.Machine
end

