-- ==== Sys2Proof/Safety.lean ====
section
/-!
DEFINITION. What holds in every state the machine can be in (spec/10_state.md R26), which end of a
run is a successful one (70_reset_and_hazards R159), and the conditions under which an instruction
executes, in the terms claims use.
-/

namespace Sys2Proof.Machine

/-- The invariant of the machine (10_state R26 b and f; 00_scope R5, R7; 42_io R108): a legal width
and length, `0 <= ip <= L`, the memory in canonical form, and every integer the machine holds a Cell.
-/
structure State.Inv (s : State) : Prop where
  width : 32 ≤ s.params.cellWidth
  lengthBound : s.mem.length ≤ 2 ^ (s.params.cellWidth - 1)
  memWf : s.mem.wf = true
  ipBound : s.ip ≤ s.mem.length
  memRange : ∀ c ∈ s.mem.cells, InCellRange s.params.cellWidth c.2
  ioRange : ∀ e ∈ s.io, InCellRange s.params.cellWidth e.value
  inputRange : ∀ v ∈ s.input, InCellRange s.params.cellWidth v

/-- The source parameter can be resolved: a literal, or a valid address (40_step_dispatch R86). -/
def State.sourceOk (s : State) : Parameter → Bool
  | .position a => decide (s.ValidAddress a)
  | .immediate _ => true

/-- The value of a source parameter that can be resolved (40_step_dispatch R86). -/
def State.operand (s : State) : Parameter → Cell
  | .position a => s.mem.read a.toNat
  | .immediate v => v

/-- The exact result raises no `ArithmeticOverflow`: it is a Cell, or the policy is `wrap`
(41_arithmetic R100). -/
def aluFits (p : Params) (z : Int) : Bool :=
  decide (InCellRange p.cellWidth z) || decide (p.overflowPolicy = .wrap)

/-- The Cell stored for an exact result that raises no `ArithmeticOverflow` (41_arithmetic R100). -/
def aluValue (p : Params) (z : Int) : Cell :=
  if InCellRange p.cellWidth z then z else wrapCell p.cellWidth z

/-- The advance amounts of the dispatch table (40_step_dispatch R84). -/
def advanceOf : Instr → Nat
  | .add _ _ _ => 4
  | .multiply _ _ _ => 4
  | .input _ => 2
  | .output _ => 2
  | .halt => 0

/-- The only successful end of a run: a final state that is Halted (70_reset_and_hazards R159). -/
def RunEnd.successful : RunEnd → Bool
  | .halted t => t.halted
  | .faulted _ => false
  | .ceiling _ => false
  | .refused _ => false

end Sys2Proof.Machine
end

