-- ==== Sys2Proof/Certificates/Slice0/Obligations.lean ====
section
/-!
DEFINITION. The statements for the provers, from the numbered rules of spec/. None has a proof here.
-/

open Sys2Proof Sys2Proof.Machine

/-! ## Encoding and decoding (spec/30_encoding.md) -/

/-- R77: `Decode` of the canonical encoding of any instruction, with any cells after it, returns the
instruction and its length; no operand bit is lost. -/
def Obligations.DecodeInvertsEncode : Prop :=
  ∀ (i : Instr) (rest : List Cell), decode (encode i ++ rest) = .ok (i, i.length)

/-- Words written out from the encoding tables (R57, R60, R71): one or more for every instruction,
with both modes and a negative literal. -/
def Obligations.SampleWordsDecode : Prop :=
  decode [1002, 4, 3, 4, 33] = .ok (.multiply (.position 4) (.immediate 3) (.position 4), 4) ∧
  decode [1, 5, 6, 7] = .ok (.add (.position 5) (.position 6) (.position 7), 4) ∧
  decode [101, -5, 6, 7] = .ok (.add (.immediate (-5)) (.position 6) (.position 7), 4) ∧
  decode [10001, 1, 2, 3] = .ok (.add (.position 1) (.position 2) (.immediate 3), 4) ∧
  decode [3, 50] = .ok (.input (.position 50), 2) ∧
  decode [103, 5] = .ok (.input (.immediate 5), 2) ∧
  decode [4, 0] = .ok (.output (.position 0), 2) ∧
  decode [104, -7] = .ok (.output (.immediate (-7)), 2) ∧
  decode [99] = .ok (.halt, 1)

/-- R58: a negative header word raises `UnknownOpcode`, before any field is extracted, whatever
follows it. -/
def Obligations.NegativeHeaderRaisesUnknownOpcode : Prop :=
  ∀ (w : Cell) (rest : List Cell), w < 0 →
    decodeHeader w = .error (.unknownOpcode w) ∧ decode (w :: rest) = .error (.unknownOpcode w)

/-- R120: a step raises `UnknownOpcode` exactly when it fetches a header word that is negative or
whose `w mod 100` is not 1, 2, 3, 4, 99; `info` is the word and the state is unchanged. -/
def Obligations.UnknownOpcodeExactly : Prop :=
  ∀ (s t : State) (w : Cell),
    step s = .fault (.unknownOpcode w t) ↔
      s.halted = false ∧ s.ip < s.mem.length ∧ t = s ∧ w = s.mem.read s.ip ∧
        (w < 0 ∨ ¬ (w.toNat % 100 = 1 ∨ w.toNat % 100 = 2 ∨ w.toNat % 100 = 3 ∨
          w.toNat % 100 = 4 ∨ w.toNat % 100 = 99))

/-- R123: a step raises `UnknownParameterMode` exactly when it fetches a header word that is not
negative, names an opcode, and has some digit of `w div 100` from 2 to 9, whether or not a parameter
stands for that digit; `info` is the word and the state is unchanged. -/
def Obligations.UnknownParameterModeExactly : Prop :=
  ∀ (s t : State) (w : Cell),
    step s = .fault (.unknownParameterMode w t) ↔
      s.halted = false ∧ s.ip < s.mem.length ∧ t = s ∧ w = s.mem.read s.ip ∧ 0 ≤ w ∧
        (w.toNat % 100 = 1 ∨ w.toNat % 100 = 2 ∨ w.toNat % 100 = 3 ∨
          w.toNat % 100 = 4 ∨ w.toNat % 100 = 99) ∧
        ∃ k, 2 ≤ w.toNat / 100 / 10 ^ k % 10

/-- R121: the decoder raises `InstructionDecodeFailed` on an empty stream; a step raises it exactly
when `ip < L`, the header decodes, and `ip + n >= L` for its `n` parameters; `info` is `ip` and the
state is unchanged. -/
def Obligations.InstructionDecodeFailedExactly : Prop :=
  decode [] = .error .instructionDecodeFailed ∧
  ∀ (s t : State) (a : Nat),
    step s = .fault (.instructionDecodeFailed a t) ↔
      s.halted = false ∧ s.ip < s.mem.length ∧ t = s ∧ a = s.ip ∧
        ∃ op ms, decodeHeader (s.mem.read s.ip) = .ok (op, ms) ∧
          s.mem.length ≤ s.ip + op.paramCount

/-- R71, first sentence: the legal header words. -/
def Obligations.LegalHeaderWordsExactly : Prop :=
  ∀ w : Cell,
    (∃ r, decodeHeader w = .ok r) ↔
      0 ≤ w ∧
        (w.toNat % 100 = 1 ∨ w.toNat % 100 = 2 ∨ w.toNat % 100 = 3 ∨
          w.toNat % 100 = 4 ∨ w.toNat % 100 = 99) ∧
        ∀ k, w.toNat / 100 / 10 ^ k % 10 ≤ 1

/-- R61: `decode_all(M)` produces `ndig(M)` modes, mode `k` from digit `k`, and fails exactly when
some digit is no mode; with the rule's examples. -/
def Obligations.ModeDigitsDecoded : Prop :=
  (∀ (M : Nat) (ms : List Mode), decodeAll M = some ms →
    M < 10 ^ ms.length ∧ (M ≠ 0 → 10 ^ (ms.length - 1) ≤ M) ∧ (M = 0 → ms = []) ∧
      ∀ k < ms.length, ms[k]? = Mode.ofDigit (M / 10 ^ k % 10)) ∧
  (∀ M : Nat, decodeAll M = none ↔ ∃ k, Mode.ofDigit (M / 10 ^ k % 10) = none) ∧
  decodeAll 0 = some [] ∧ decodeAll 10 = some [.position, .immediate] ∧
  decodeAll 100 = some [.position, .position, .immediate] ∧
  decodeAll 11 = some [.immediate, .immediate]

/-- R55, R57, R66, R67: a decoded instruction has one parameter for each raw word pulled, in address
order; parameter `k` is `Immediate` of raw word `k` where digit `k` of `w div 100` is 1 and
`Position` of it otherwise; the length is 1 + the parameter count. -/
def Obligations.ParametersFollowModeDigits : Prop :=
  ∀ (w : Cell) (rest : List Cell) (i : Instr) (n : Nat), decode (w :: rest) = .ok (i, n) →
    some i.opcode = Opcode.ofNumber (w.toNat % 100) ∧
    n = 1 + i.parameters.length ∧ i.parameters.length ≤ rest.length ∧
    ∀ k < i.parameters.length, ∃ r, rest[k]? = some r ∧
      i.parameters[k]? =
        some (if w.toNat / 100 / 10 ^ k % 10 = 1 then .immediate r else .position r)

/-- R63: missing mode digits default to `Position`; an extra digit of 2 to 9 raises
`UnknownParameterMode`; extra digits of 0 and 1 have no effect; with the rule's examples. -/
def Obligations.FewerOrMoreModeDigits : Prop :=
  (∀ (w : Cell) (rest : List Cell) (i : Instr) (n k : Nat) (p : Parameter),
    decode (w :: rest) = .ok (i, n) → i.parameters[k]? = some p → w.toNat / 100 < 10 ^ k →
      p.mode = .position) ∧
  (∀ (w : Cell) (op : Opcode) (k : Nat), 0 ≤ w → Opcode.ofNumber (w.toNat % 100) = some op →
    op.paramCount ≤ k → 2 ≤ w.toNat / 100 / 10 ^ k % 10 →
      decodeHeader w = .error (.unknownParameterMode w)) ∧
  (∀ (w : Cell) (op : Opcode) (ms : List Mode) (e : Nat) (rest : List Cell),
    decodeHeader w = .ok (op, ms) → w.toNat < 10 ^ (2 + op.paramCount) →
    (∀ k, e / 10 ^ k % 10 ≤ 1) →
      decode ((w + (e * 10 ^ (2 + op.paramCount) : Nat)) :: rest) = decode (w :: rest)) ∧
  decode [1199] = .ok (.halt, 1) ∧ decode [100099] = .ok (.halt, 1) ∧
  decode [10099] = .ok (.halt, 1) ∧ decode [1104, 5] = .ok (.output (.immediate 5), 2) ∧
  decode [299] = .error (.unknownParameterMode 299)

/-! ## Reset, memory and the loader (spec/20_memory.md, 70_reset_and_hazards.md) -/

/-- R146: what construction sets, for every image; and the first step decodes from address 0. -/
def Obligations.ConstructionSetsState : Prop :=
  ∀ (p : Params) (P source : List Cell),
    (construct p P source).mem.length = P.length ∧
    (∀ (a : Nat) (v : Cell), P[a]? = some v → memRead (construct p P source) a = .ok v) ∧
    (construct p P source).ip = 0 ∧ (construct p P source).halted = false ∧
    (construct p P source).cycle = 0 ∧ (construct p P source).io = [] ∧
    (construct p P source).input = source ∧ (construct p P source).params = p ∧
    (construct p P source).runState = .running ∧
    ∀ (i : Instr) (n : Nat), decode P = .ok (i, n) →
      fetchInstr (construct p P source) = .ok i

/-- The model's `State.reset` is construction with the default parameters on the empty image with an
empty input source, the model's own choice (log entries 1, 3 and 4); its first step is R151's for
`L = 0`. -/
def Obligations.ResetIsEmptyConstruction : Prop :=
  State.reset = construct defaultParams [] [] ∧
    step State.reset = .fault (.memoryOperationOutOfBounds 0 State.reset)

/-- R34: a write at a valid address overwrites that cell in place, is visible to every later read, and
changes nothing else; at any other address it raises the bounds error and changes nothing; with the
rule's example. The premise that the memory is in canonical form is `State.Inv.memWf`. -/
def Obligations.WriteThenRead : Prop :=
  (∀ (s : State) (a : Int) (v : Cell), s.mem.wf = true → 0 ≤ a → a < (s.mem.length : Int) →
    ∃ t, memWrite s a v = .ok t ∧ memRead t a = .ok v ∧
      (∀ (b : Int) (x : Cell), b ≠ a → memRead s b = .ok x → memRead t b = .ok x) ∧
      t = s.setMem t.mem ∧ t.mem.length = s.mem.length) ∧
  (∀ (s : State) (a : Int) (v : Cell), ¬ (0 ≤ a ∧ a < (s.mem.length : Int)) →
    memWrite s a v = .error (.memoryOperationOutOfBounds a s)) ∧
  ∀ (p : Params) (P : List Cell), P.length = 5 →
    (∃ t, memWrite (construct p P []) 3 6 = .ok t ∧ memRead t 3 = .ok 6) ∧
      memWrite (construct p P []) 5 0 =
        .error (.memoryOperationOutOfBounds 5 (construct p P []))

/-- R35: a stream at a valid address yields exactly the `L - addr` cells from there to the end, in
order; at any other address its creation raises the bounds error. -/
def Obligations.StreamYieldsRemainingCells : Prop :=
  (∀ (s : State) (a : Nat), a < s.mem.length →
    ∃ cs, memStream s a = .ok cs ∧ cs.length = s.mem.length - a ∧
      ∀ (k : Nat) (c : Cell), cs[k]? = some c → memRead s ((a + k : Nat) : Int) = .ok c) ∧
  ∀ (s : State) (a : Int), ¬ (0 ≤ a ∧ a < (s.mem.length : Int)) →
    memStream s a = .error (.memoryOperationOutOfBounds a s)

/-- Memories in canonical form with the same length and the same cells are equal data: the form the
model chose (log entry 5) hides no state. -/
def Obligations.EqualReadsEqualMemory : Prop :=
  ∀ m n : Memory, m.wf = true → n.wf = true → m.length = n.length →
    (∀ a < m.length, m.read a = n.read a) → m = n

/-- R50: a cell written is what every later stream that covers its address yields there, with no
fence and no delay. -/
def Obligations.FetchSeesEarlierWrite : Prop :=
  ∀ (s t : State) (a b : Nat) (v : Cell) (cs : List Cell), s.mem.wf = true →
    memWrite s a v = .ok t → b ≤ a → memStream t b = .ok cs → cs[a - b]? = some v

/-- R150: the tokens of a text are taken in order, a comma parting them, each giving at most one cell;
every cell loaded is a Cell of the width; with the rule's first and third examples. -/
def Obligations.LoadTextByTokens : Prop :=
  (∀ (p : Params) (t u : List Char),
    loadText p (t ++ ',' :: u) = loadText p t ++ loadText p u) ∧
  (∀ (p : Params) (t : List Char), ',' ∉ t → loadText p t = (tokenCell p t).toList) ∧
  (∀ (p : Params) (t : List Char), ∀ c ∈ loadText p t, InCellRange p.cellWidth c) ∧
  loadText defaultParams ['1', ',', '0', ',', '0', ',', '0', ',', '9', '9', '\n'] =
    [1, 0, 0, 0, 99] ∧
  loadText defaultParams ['1', ',', 'x', ',', '2'] = [1, 2]

/-! ## The step (spec/40_step_dispatch.md, 60_exceptions.md) -/

/-- R80, R83: a Running machine whose stream at `ip` decodes to an instruction executes exactly that
instruction; the step adds nothing to `exec`, whose meanings advance `ip` and `cycle` themselves. -/
def Obligations.StepRunsDecodedInstruction : Prop :=
  ∀ (s : State) (cells : List Cell) (i : Instr) (n : Nat), s.halted = false →
    memStream s s.ip = .ok cells → decode cells = .ok (i, n) → step s = exec i s

/-- R128: a step raises `StepWhileHalted` exactly when it is invoked while `halted` is true; it has no
`info`, and changes nothing. -/
def Obligations.StepWhileHaltedExactly : Prop :=
  ∀ s t : State,
    (step s = .fault (.stepWhileHalted t) ↔ s.halted = true ∧ t = s) ∧
      (Fault.stepWhileHalted t).info = 0

/-- R82: a Running machine with `ip >= L` raises the bounds error of `ip`, `L = 0` included. -/
def Obligations.FetchBeyondMemoryRaises : Prop :=
  ∀ s : State, s.halted = false → s.mem.length ≤ s.ip →
    step s = .fault (.memoryOperationOutOfBounds s.ip s)

/-- R83: a decode failure ends the step with its error and leaves all state as it was. -/
def Obligations.DecodeErrorEndsStep : Prop :=
  ∀ (s : State) (cells : List Cell) (e : DecodeError), s.halted = false →
    memStream s s.ip = .ok cells → decode cells = .error e →
      step s = .fault (decodeFault e s) ∧ (decodeFault e s).left = s

/-- R90: a step that returns `Ok` adds the instruction's advance (4, 4, 2, 2, 0) to `ip` and 1 to
`cycle`; a step that raises an error does neither. -/
def Obligations.OkStepAdvances : Prop :=
  (∀ s t : State, step s = .next t →
    ∃ i, fetchInstr s = .ok i ∧ t.ip = s.ip + advanceOf i ∧ t.cycle = s.cycle + 1) ∧
  (∀ (s : State) (f : Fault), step s = .fault f → f.left.ip = s.ip ∧ f.left.cycle = s.cycle) ∧
  ∀ p1 p2 p3 : Parameter,
    advanceOf (.add p1 p2 p3) = 4 ∧ advanceOf (.multiply p1 p2 p3) = 4 ∧
      advanceOf (.input p1) = 2 ∧ advanceOf (.output p1) = 2 ∧ advanceOf .halt = 0

/-- R133: a failing step leaves the whole state unchanged, and is then no `Input` that obtained a
value; an `Input` that obtained one, and whose write fails, has consumed it and recorded it. -/
def Obligations.FailingStepLeavesState : Prop :=
  ∀ (s : State) (f : Fault), step s = .fault f →
    (f.left = s ∧ ∀ pDest, fetchInstr s = .ok (.input pDest) → s.input = []) ∨
      ∃ pDest v rest, fetchInstr s = .ok (.input pDest) ∧ s.input = v :: rest ∧
        f.left = { s with input := rest, io := s.io ++ [.userInput v] } ∧
        (f = .writeParameterCannotBeImmediateMode pDest.raw f.left ∨
          f = .memoryOperationOutOfBounds pDest.raw f.left)

/-- R26, R5, R7, R108: every step keeps the invariant, from every state that has it: a legal width
and length, `ip <= L`, memory in canonical form, and every integer held a Cell. -/
def Obligations.StepKeepsInv : Prop :=
  ∀ s t : State, s.Inv → step s = .next t → t.Inv

/-- The state a failing step leaves has the invariant too (R26, R133). -/
def Obligations.FailingStepKeepsInv : Prop :=
  ∀ (s : State) (f : Fault), s.Inv → step s = .fault f → f.left.Inv

/-- The invariant holds at `State.reset`, a state of the model's own choice (log entries 1, 3, 4). -/
def Obligations.ResetHasInv : Prop := State.reset.Inv

/-- R151: construction on a legal image, with a source of Cells, gives a state with the invariant. -/
def Obligations.ConstructionHasInv : Prop :=
  ∀ (p : Params) (P source : List Cell), imageLegal p P = true →
    (∀ v ∈ source, InCellRange p.cellWidth v) → (construct p P source).Inv

/-- R15: `halted` becomes true only by `Halt`; no step clears it, a failing one neither. -/
def Obligations.HaltedOnlyByHalt : Prop :=
  (∀ s t : State, step s = .next t → (t.halted = true ↔ fetchInstr s = .ok .halt)) ∧
  ∀ (s : State) (f : Fault), step s = .fault f → f.left.halted = s.halted

/-- R26 a, c, d, e: over any step, failing or not, `L` and the parameters stay, `halted` is never
cleared, `cycle` never falls, and `io` grows by at most one entry. -/
def Obligations.HistoryOnlyGrows : Prop :=
  ∀ s t : State, (step s = .next t ∨ ∃ f, step s = .fault f ∧ f.left = t) →
    t.mem.length = s.mem.length ∧ t.params = s.params ∧ (s.halted = true → t.halted = true) ∧
      s.cycle ≤ t.cycle ∧ (t.io = s.io ∨ ∃ e, t.io = s.io ++ [e])

/-- R114: the values recorded as `UserInput`, with those the source still holds, are the source's
sequence: a step, failing or not, only moves values from the source to the record. -/
def Obligations.InputConserved : Prop :=
  ∀ s t : State, (step s = .next t ∨ ∃ f, step s = .fault f ∧ f.left = t) →
    inputValues t.io ++ t.input = inputValues s.io ++ s.input

/-- R17, R18: the IO record and the cycle counter are never consulted by the machine: a step from a
state that differs in them alone does the same, with the same entry appended. -/
def Obligations.RecordAndCycleNeverConsulted : Prop :=
  ∀ (s : State) (io' : List RecordedIO) (c' : Nat),
    (∀ t, step s = .next t →
      step { s with io := io', cycle := c' } =
        .next { t with io := io' ++ t.io.drop s.io.length, cycle := c' + 1 }) ∧
    ∀ f, step s = .fault f →
      ∃ g, step { s with io := io', cycle := c' } = .fault g ∧ g.code = f.code ∧ g.info = f.info ∧
        g.left = { f.left with io := io' ++ f.left.io.drop s.io.length, cycle := c' }

/-- R107: the input source is consulted by `Input` and by nothing else: any other instruction does the
same with any source, and leaves it as it was. -/
def Obligations.OnlyInputConsultsSource : Prop :=
  ∀ (s t : State) (i : Instr) (q : List Cell), fetchInstr s = .ok i → (∀ d, i ≠ .input d) →
    step s = .next t → t.input = s.input ∧ step (s.setInput q) = .next (t.setInput q)

/-- R96: the answer is used up exactly when the instruction is `Input` and the answer is a value,
whether or not the write then succeeds. -/
def Obligations.AnswerConsumedExactly : Prop :=
  ∀ (s : State) (ans : Answer),
    (stepAnswering ans s).consumed = true ↔
      (∃ v, ans = .value v) ∧ ∃ d, fetchInstr s = .ok (.input d)

/-- R135, for a source that obtains nothing between the two steps: a step repeated from the state a
failing step left raises the same error again, or, after a failing `Input` write whose source has run
out, `InputAcquisitionFailed`. R135 lets the source answer after `InputAcquisitionFailed`; that it fails
again, as a source that has run out does, is the model's choice (DESIGN CHOICE, log entry 4, unsafe). -/
def Obligations.RetryRaisesSameError : Prop :=
  ∀ (s : State) (f : Fault), step s = .fault f →
    ∃ g, step f.left = .fault g ∧
      ((g.code = f.code ∧ g.info = f.info) ∨
        ((∃ d, fetchInstr s = .ok (.input d)) ∧ f.left.input = [] ∧
          g = .inputAcquisitionFailed f.left))

/-- R85: no instruction is refused: the dispatch is closed and exhaustive. -/
def Obligations.NoInstructionRefused : Prop :=
  (∀ (i : Instr) (s : State) (r : Refusal), exec i s ≠ .refused r) ∧
  ∀ (s : State) (r : Refusal), step s ≠ .refused r

/-- R93: from every state, a run ends within `L div 2 + 1` steps: the driver that stops there never
finds the machine still Running. R159 says so of an input source that answers; that every `Input` gets
its answer at once is the model's choice (DESIGN CHOICE, log entry 8, unsafe). -/
def Obligations.RunEndsWithinBound : Prop :=
  ∀ s : State, (∃ t, runToEnd s = .halted t) ∨ ∃ f, runToEnd s = .faulted f

/-- R158: the driver tests `halted` before every step, so it never raises `StepWhileHalted`. -/
def Obligations.DriverNeverStepsHalted : Prop :=
  ∀ (n : Nat) (s t : State), run n s ≠ .faulted (.stepWhileHalted t)

/-- R159: a run of a Running machine that ends Halted ends with `halted` true, `ip` at a header that
decodes to `Halt`, and at least one and at most `n` more instructions counted. -/
def Obligations.HaltedRunEndsAtHalt : Prop :=
  ∀ (n : Nat) (s t : State), s.halted = false → run n s = .halted t →
    t.halted = true ∧ fetchInstr { t with halted := false } = .ok .halt ∧
      s.cycle < t.cycle ∧ t.cycle ≤ s.cycle + n

/-! ## The instructions (spec/41_arithmetic.md, 42_io.md, 43_halt.md) -/

/-- R101: what `Add` does: the sum of its operands stored at `pDest`'s address, 4 added to `ip` and 1
to `cycle`, nothing else; its errors in the order checked, on each of which nothing is written; its
encoding and the rule's worked example. -/
def Obligations.AddMeaning : Prop :=
  ∀ (s : State) (p1 p2 pDest : Parameter),
    (s.sourceOk p1 = true → s.sourceOk p2 = true →
      aluFits s.params (s.operand p1 + s.operand p2) = true →
      ∀ a, pDest = .position a → s.ValidAddress a →
        exec (.add p1 p2 pDest) s = .next { s with
          mem := s.mem.write a.toNat (aluValue s.params (s.operand p1 + s.operand p2))
          ip := s.ip + 4
          cycle := s.cycle + 1 }) ∧
    (s.sourceOk p1 = false →
      exec (.add p1 p2 pDest) s = .fault (.memoryOperationOutOfBounds p1.raw s)) ∧
    (s.sourceOk p1 = true → s.sourceOk p2 = false →
      exec (.add p1 p2 pDest) s = .fault (.memoryOperationOutOfBounds p2.raw s)) ∧
    (s.sourceOk p1 = true → s.sourceOk p2 = true →
      aluFits s.params (s.operand p1 + s.operand p2) = false →
        exec (.add p1 p2 pDest) s = .fault (.arithmeticOverflow s)) ∧
    (s.sourceOk p1 = true → s.sourceOk p2 = true →
      aluFits s.params (s.operand p1 + s.operand p2) = true → ∀ x, pDest = .immediate x →
        exec (.add p1 p2 pDest) s = .fault (.writeParameterCannotBeImmediateMode x s)) ∧
    (s.sourceOk p1 = true → s.sourceOk p2 = true →
      aluFits s.params (s.operand p1 + s.operand p2) = true → ∀ a, pDest = .position a →
        ¬ s.ValidAddress a →
          exec (.add p1 p2 pDest) s = .fault (.memoryOperationOutOfBounds a s)) ∧
    encode (.add p1 p2 pDest) =
      [((1 + 100 * p1.mode.digit + 1000 * p2.mode.digit + 10000 * pDest.mode.digit : Nat) : Int),
        p1.raw, p2.raw, pDest.raw] ∧
    step (construct defaultParams [1, 0, 0, 0, 99] []) =
      .next { construct defaultParams [2, 0, 0, 0, 99] [] with ip := 4, cycle := 1 }

/-- R102: what `Multiply` does: as `Add`, with the full signed product; its
encoding and the rule's worked examples. -/
def Obligations.MultiplyMeaning : Prop :=
  ∀ (s : State) (p1 p2 pDest : Parameter),
    (s.sourceOk p1 = true → s.sourceOk p2 = true →
      aluFits s.params (s.operand p1 * s.operand p2) = true →
      ∀ a, pDest = .position a → s.ValidAddress a →
        exec (.multiply p1 p2 pDest) s = .next { s with
          mem := s.mem.write a.toNat (aluValue s.params (s.operand p1 * s.operand p2))
          ip := s.ip + 4
          cycle := s.cycle + 1 }) ∧
    (s.sourceOk p1 = false →
      exec (.multiply p1 p2 pDest) s = .fault (.memoryOperationOutOfBounds p1.raw s)) ∧
    (s.sourceOk p1 = true → s.sourceOk p2 = false →
      exec (.multiply p1 p2 pDest) s = .fault (.memoryOperationOutOfBounds p2.raw s)) ∧
    (s.sourceOk p1 = true → s.sourceOk p2 = true →
      aluFits s.params (s.operand p1 * s.operand p2) = false →
        exec (.multiply p1 p2 pDest) s = .fault (.arithmeticOverflow s)) ∧
    (s.sourceOk p1 = true → s.sourceOk p2 = true →
      aluFits s.params (s.operand p1 * s.operand p2) = true → ∀ x, pDest = .immediate x →
        exec (.multiply p1 p2 pDest) s = .fault (.writeParameterCannotBeImmediateMode x s)) ∧
    (s.sourceOk p1 = true → s.sourceOk p2 = true →
      aluFits s.params (s.operand p1 * s.operand p2) = true → ∀ a, pDest = .position a →
        ¬ s.ValidAddress a →
          exec (.multiply p1 p2 pDest) s = .fault (.memoryOperationOutOfBounds a s)) ∧
    encode (.multiply p1 p2 pDest) =
      [((2 + 100 * p1.mode.digit + 1000 * p2.mode.digit + 10000 * pDest.mode.digit : Nat) : Int),
        p1.raw, p2.raw, pDest.raw] ∧
    step (construct defaultParams [2, 3, 0, 3, 99] []) =
      .next { construct defaultParams [2, 3, 0, 6, 99] [] with ip := 4, cycle := 1 } ∧
    step (construct defaultParams [2, 4, 4, 5, 99, 0] []) =
      .next { construct defaultParams [2, 4, 4, 5, 99, 9801] [] with ip := 4, cycle := 1 }

/-- R109, R110: what `Input` does: the source's next value recorded and stored at `pDest`'s address, 2
added to `ip` and 1 to `cycle`; its errors in the order checked, a failing write leaving the value
consumed and recorded; its encoding and the rule's worked example, for every value. -/
def Obligations.InputMeaning : Prop :=
  ∀ (s : State) (pDest : Parameter),
    (∀ v rest a, s.input = v :: rest → pDest = .position a → s.ValidAddress a →
      exec (.input pDest) s = .next { s with
        input := rest
        io := s.io ++ [.userInput v]
        mem := s.mem.write a.toNat v
        ip := s.ip + 2
        cycle := s.cycle + 1 }) ∧
    (s.input = [] → exec (.input pDest) s = .fault (.inputAcquisitionFailed s)) ∧
    (∀ v rest x, s.input = v :: rest → pDest = .immediate x →
      exec (.input pDest) s = .fault (.writeParameterCannotBeImmediateMode x
        { s with input := rest, io := s.io ++ [.userInput v] })) ∧
    (∀ v rest a, s.input = v :: rest → pDest = .position a → ¬ s.ValidAddress a →
      exec (.input pDest) s = .fault (.memoryOperationOutOfBounds a
        { s with input := rest, io := s.io ++ [.userInput v] })) ∧
    encode (.input pDest) = [((3 + 100 * pDest.mode.digit : Nat) : Int), pDest.raw] ∧
    ∀ v, step (construct defaultParams [3, 0, 4, 0, 99] [v]) =
      .next { construct defaultParams [v, 0, 4, 0, 99] [] with
        ip := 2, cycle := 1, io := [.userInput v] }

/-- R111: what `Output` does: its operand recorded, 2 added to `ip` and 1 to `cycle`; its one error
appends nothing; `OUTPUT #v` never fails; its encoding and the rule's worked example, for every value. -/
def Obligations.OutputMeaning : Prop :=
  ∀ (s : State) (pSrc : Parameter),
    (s.sourceOk pSrc = true →
      exec (.output pSrc) s = .next { s with
        io := s.io ++ [.output (s.operand pSrc)]
        ip := s.ip + 2
        cycle := s.cycle + 1 }) ∧
    (s.sourceOk pSrc = false →
      exec (.output pSrc) s = .fault (.memoryOperationOutOfBounds pSrc.raw s)) ∧
    (∀ v, pSrc = .immediate v → s.sourceOk pSrc = true ∧ s.operand pSrc = v) ∧
    encode (.output pSrc) = [((4 + 100 * pSrc.mode.digit : Nat) : Int), pSrc.raw] ∧
    ∀ v, step { construct defaultParams [v, 0, 4, 0, 99] [] with
        ip := 2, cycle := 1, io := [.userInput v] } =
      .next { construct defaultParams [v, 0, 4, 0, 99] [] with
        ip := 4, cycle := 2, io := [.userInput v, .output v] }

/-- R115: what `Halt` does, always: `halted` set, `ip` unchanged, 1 added to `cycle`; every header word
that decodes to it; the rule's worked example. -/
def Obligations.HaltMeaning : Prop :=
  (∀ s : State, exec .halt s = .next { s with halted := true, cycle := s.cycle + 1 }) ∧
  encode .halt = [99] ∧
  (∀ (w : Cell) (rest : List Cell), 0 ≤ w → w.toNat % 100 = 99 →
    (∀ k, w.toNat / 100 / 10 ^ k % 10 ≤ 1) → decode (w :: rest) = .ok (.halt, 1)) ∧
  decodeHeader 299 = .error (.unknownParameterMode 299) ∧
  step { construct defaultParams [2, 0, 0, 0, 99] [] with ip := 4, cycle := 1 } =
    .next { construct defaultParams [2, 0, 0, 0, 99] [] with ip := 4, cycle := 2, halted := true }

/-- R117: a `Halt` in the last cell of memory executes; no cell after it is read. -/
def Obligations.HaltInLastCell : Prop :=
  ∀ (s : State) (ms : List Mode), s.halted = false → s.ip + 1 = s.mem.length →
    decodeHeader (s.mem.read s.ip) = .ok (.halt, ms) →
      step s = .next { s with halted := true, cycle := s.cycle + 1 }

/-- R100: `AluResult` under both policies: the exact result where it is a Cell; otherwise
`ArithmeticOverflow`, or the unique Cell congruent to it modulo `2^W`; with the rule's examples. -/
def Obligations.AluResultByPolicy : Prop :=
  (∀ (W : Nat) (pol : OverflowPolicy) (z : Int), InCellRange W z →
    aluCell ⟨W, pol⟩ z = some z) ∧
  (∀ (W : Nat) (z : Int), ¬ InCellRange W z → aluCell ⟨W, .fault⟩ z = none) ∧
  (∀ (W : Nat) (z : Int), 1 ≤ W → ¬ InCellRange W z →
    ∃ r, aluCell ⟨W, .wrap⟩ z = some r ∧ InCellRange W r ∧ (2 ^ W : Int) ∣ (z - r) ∧
      ∀ c, InCellRange W c → (2 ^ W : Int) ∣ (z - c) → c = r) ∧
  (∀ (s : State) (z : Int), aluCell s.params z = none →
    aluResult s z = .error (.arithmeticOverflow s)) ∧
  (∀ (s : State) (z r : Int), aluCell s.params z = some r → aluResult s z = .ok r) ∧
  aluCell ⟨32, .wrap⟩ (2147483647 + 1) = some (-2147483648) ∧
  aluCell ⟨32, .wrap⟩ (-2147483648 + (-1)) = some 2147483647 ∧
  aluCell ⟨32, .wrap⟩ (65536 * 65536) = some 0 ∧
  aluCell ⟨32, .wrap⟩ (-2147483648 * (-1)) = some (-2147483648) ∧
  aluCell ⟨32, .wrap⟩ (46341 * 46341) = some (-2147479015)

/-- R99: swapping `p1` and `p2` changes the outcome of `Add` and `Multiply` only in which bad operand
is reported: the next state is the same, and so is the kind of error. -/
def Obligations.ArithmeticCommutes : Prop :=
  ∀ (s : State) (p1 p2 pDest : Parameter),
    (∀ t, (exec (.add p1 p2 pDest) s = .next t ↔ exec (.add p2 p1 pDest) s = .next t) ∧
      (exec (.multiply p1 p2 pDest) s = .next t ↔ exec (.multiply p2 p1 pDest) s = .next t)) ∧
    (∀ f, exec (.add p1 p2 pDest) s = .fault f →
      ∃ g, exec (.add p2 p1 pDest) s = .fault g ∧ g.code = f.code) ∧
    ∀ f, exec (.multiply p1 p2 pDest) s = .fault f →
      ∃ g, exec (.multiply p2 p1 pDest) s = .fault g ∧ g.code = f.code

/-- R88, R103 item 1: sources are read before the write, so an `Add` whose operands and destination
are one cell doubles it and a `Multiply` squares it. -/
def Obligations.SourceIsDestination : Prop :=
  ∀ (s : State) (a : Int), s.mem.wf = true → s.ValidAddress a →
    (InCellRange s.params.cellWidth (s.mem.read a.toNat + s.mem.read a.toNat) →
      ∃ t, exec (.add (.position a) (.position a) (.position a)) s = .next t ∧
        t.mem.read a.toNat = s.mem.read a.toNat + s.mem.read a.toNat) ∧
    (InCellRange s.params.cellWidth (s.mem.read a.toNat * s.mem.read a.toNat) →
      ∃ t, exec (.multiply (.position a) (.position a) (.position a)) s = .next t ∧
        t.mem.read a.toNat = s.mem.read a.toNat * s.mem.read a.toNat)

/-- R101, R102, R104, frame: an `Add` or `Multiply` that answers a next state changes `ip`, `cycle` and
the one cell at its destination's address; every other cell, the flag, the record, the source, `L`
and the parameters stay. -/
def Obligations.ArithmeticFrame : Prop :=
  ∀ (s t : State) (p1 p2 pDest : Parameter),
    (exec (.add p1 p2 pDest) s = .next t ∨ exec (.multiply p1 p2 pDest) s = .next t) →
      t.halted = s.halted ∧ t.io = s.io ∧ t.input = s.input ∧ t.params = s.params ∧
        t.mem.length = s.mem.length ∧
        ∀ a b : Nat, pDest = .position a → b ≠ a → t.mem.read b = s.mem.read b

/-- R109, frame: an `Input` that answers a next state changes `ip`, `cycle`, the record, the source and
the one cell at its destination's address. -/
def Obligations.InputFrame : Prop :=
  ∀ (s t : State) (pDest : Parameter), exec (.input pDest) s = .next t →
    t.halted = s.halted ∧ t.params = s.params ∧ t.mem.length = s.mem.length ∧
      (∃ v, s.input = v :: t.input ∧ t.io = s.io ++ [.userInput v]) ∧
      ∀ a b : Nat, pDest = .position a → b ≠ a → t.mem.read b = s.mem.read b

/-- R111, R115, frame: `Output` and `Halt` write no cell and leave the source; `Output` leaves the flag
and every earlier entry of the record, `Halt` leaves the record. -/
def Obligations.OutputAndHaltFrame : Prop :=
  (∀ (s t : State) (pSrc : Parameter), exec (.output pSrc) s = .next t →
    t.mem = s.mem ∧ t.halted = s.halted ∧ t.input = s.input ∧ t.params = s.params ∧
      ∃ v, t.io = s.io ++ [.output v]) ∧
  ∀ s t : State, exec .halt s = .next t →
    t.mem = s.mem ∧ t.ip = s.ip ∧ t.io = s.io ∧ t.input = s.input ∧ t.params = s.params

/-- R118, R119: the codes 1 to 8 of the eight kinds, and no error kind without one. -/
def Obligations.ErrorCodesOfKinds : Prop :=
  ∀ (s : State) (w : Cell) (a : Nat) (z : Int),
    (Fault.unknownOpcode w s).code = 1 ∧ (Fault.instructionDecodeFailed a s).code = 2 ∧
    (Fault.memoryOperationOutOfBounds z s).code = 3 ∧ (Fault.unknownParameterMode w s).code = 4 ∧
    (Fault.writeParameterCannotBeImmediateMode w s).code = 5 ∧
    (Fault.inputAcquisitionFailed s).code = 6 ∧ (Fault.arithmeticOverflow s).code = 7 ∧
    (Fault.stepWhileHalted s).code = 8 ∧
    ∀ f : Fault, f.code ≠ 0 ∧ errorPort (.fault f) = some (f.code, f.info)
end

