-- ==== Sys2Proof/Laws/Decode.lean ====
section
/-!
SUPPORT. The decoder's functions, one spec lemma each (spec/30_encoding.md R57 to R68).
-/

namespace Sys2Proof

/-- `decode_all` does not depend on its fuel, once there is enough. -/
theorem decodeModes_fuel {f M : Nat} (h : M ≤ f) : decodeModes f M = decodeAll M := by
  induction f using Nat.strong_induction_on generalizing M with
  | _ f ih =>
    have key : ∀ {g N : Nat}, N ≤ g → g < f → decodeModes g N = decodeAll N :=
      fun hN hg => ih _ hg hN
    cases f with
    | zero =>
      obtain rfl : M = 0 := by omega
      rfl
    | succ f =>
      by_cases hM : M = 0
      · subst hM
        rfl
      · obtain ⟨M, rfl⟩ : ∃ k, M = k + 1 := ⟨M - 1, by omega⟩
        have h1 : decodeModes f ((M + 1) / 10) = decodeAll ((M + 1) / 10) := key (by omega) (by omega)
        have h2 : decodeModes M ((M + 1) / 10) = decodeAll ((M + 1) / 10) := by
          rcases Nat.lt_or_ge M (f + 1) with hlt | hge
          · exact key (by omega) hlt
          · omega
        change decodeModes (f + 1) (M + 1) = decodeModes (M + 1) (M + 1)
        simp only [decodeModes, hM, if_false]
        rw [h1, h2]

@[simp] theorem decodeAll_zero : decodeAll 0 = some [] := rfl

/-- One turn of the loop of `decode_all` (R61). -/
theorem decodeAll_step {M : Nat} (h : M ≠ 0) :
    decodeAll M =
      match Mode.ofDigit (M % 10) with
      | none => none
      | some m =>
        match decodeAll (M / 10) with
        | none => none
        | some ms => some (m :: ms) := by
  obtain ⟨k, rfl⟩ : ∃ k, M = k + 1 := ⟨M - 1, by omega⟩
  change decodeModes (k + 1) (k + 1) = _
  rw [decodeModes, if_neg h, decodeModes_fuel (by omega)] <;> rfl

/-- `decode_all` that answers read a mode from every digit: the first, and then the rest. -/
theorem decodeAll_cons {M : Nat} {m : Mode} {ms : List Mode} (h : decodeAll M = some (m :: ms)) :
    M ≠ 0 ∧ Mode.ofDigit (M % 10) = some m ∧ decodeAll (M / 10) = some ms := by
  by_cases hM : M = 0
  · simp [hM] at h
  · rw [decodeAll_step hM] at h
    cases h1 : Mode.ofDigit (M % 10) with
    | none => simp [h1] at h
    | some m' =>
      cases h2 : decodeAll (M / 10) with
      | none => simp [h1, h2] at h
      | some ms' =>
        simp only [h1, h2, Option.some.injEq, List.cons.injEq] at h
        exact ⟨hM, by simp [h.1], by simp [h.2]⟩

/-- Only the digits 0 and 1 are modes. -/
theorem Mode.ofDigit_eq_none {d : Nat} : Mode.ofDigit d = none ↔ 2 ≤ d := by
  rcases d with _ | _ | d <;> simp [Mode.ofDigit]

theorem Mode.ofDigit_digit (m : Mode) : Mode.ofDigit m.digit = some m := by cases m <;> rfl

theorem Opcode.ofNumber_number (op : Opcode) : Opcode.ofNumber op.number = some op := by
  cases op <;> rfl

/-- The five opcodes and no others (R60). -/
theorem Opcode.ofNumber_isSome {n : Nat} :
    (Opcode.ofNumber n).isSome ↔ n = 1 ∨ n = 2 ∨ n = 3 ∨ n = 4 ∨ n = 99 := by
  unfold Opcode.ofNumber
  split
  case h_6 h1 h2 h3 h4 h5 => simpa using ⟨h1, h2, h3, h4, h5⟩
  all_goals simp

/-- A header word that decodes is not negative, names an opcode, and has only mode digits. -/
theorem decodeHeader_ok {w : Cell} {op : Opcode} {ms : List Mode} :
    decodeHeader w = .ok (op, ms) ↔
      0 ≤ w ∧ Opcode.ofNumber (w.toNat % 100) = some op ∧ decodeAll (w.toNat / 100) = some ms := by
  unfold decodeHeader
  by_cases hw : w < 0
  · simp [hw]
  · cases h1 : Opcode.ofNumber (w.toNat % 100) with
    | none => simp [hw]
    | some op' =>
      cases h2 : decodeAll (w.toNat / 100) with
      | none => simp [hw]
      | some ms' =>
        simp [hw, not_lt.1 hw]

/-- `pullWords` answers the first `n` cells, when there are so many. -/
theorem pullWords_eq (n : Nat) (cs : List Cell) :
    pullWords n cs = if n ≤ cs.length then some (cs.take n) else none := by
  induction n generalizing cs with
  | zero => simp [pullWords]
  | succ n ih =>
    cases cs with
    | nil => simp [pullWords]
    | cons c cs =>
      simp only [pullWords, ih, List.length_cons, Nat.add_le_add_iff_right, List.take_succ_cons]
      split <;> simp_all

/-- The decoder that answers: a legal header, enough words, the parameters wrapped by their modes. -/
theorem decode_ok {cs : List Cell} {i : Instr} {n : Nat} :
    decode cs = .ok (i, n) ↔
      ∃ w rest op ms, cs = w :: rest ∧ decodeHeader w = .ok (op, ms) ∧
        op.paramCount ≤ rest.length ∧ n = 1 + op.paramCount ∧
        i = assembleInstr op
          (fun k => wrapParameter ms k ((rest.take op.paramCount).getD k 0)) := by
  cases cs with
  | nil => simp [decode]
  | cons w rest =>
    simp only [decode]
    cases hh : decodeHeader w with
    | error e => simp [hh]
    | ok r =>
      obtain ⟨op, ms⟩ := r
      by_cases hl : op.paramCount ≤ rest.length
      · simp [pullWords_eq, hl, hh, eq_comm, and_comm]
      · simp [pullWords_eq, hl, hh]

/-- Assembling gives the opcode asked for. -/
@[simp] theorem assembleInstr_opcode (op : Opcode) (p : Nat → Parameter) :
    (assembleInstr op p).opcode = op := by cases op <;> rfl

/-- The length the decoder returns is the instruction's (R68). -/
theorem decode_length {cs : List Cell} {i : Instr} {n : Nat} (h : decode cs = .ok (i, n)) :
    n = i.length ∧ n ≤ cs.length := by
  obtain ⟨w, rest, op, ms, rfl, _, hl, rfl, rfl⟩ := decode_ok.1 h
  exact ⟨by simp [Instr.length], by simp; omega⟩

end Sys2Proof
end

