-- ==== Sys2Proof/Laws/State.lean ====
section
/-!
SUPPORT. One lemma per field per update of the state, so that no proof unfolds a record update.
-/

namespace Sys2Proof.Machine

variable (s : State)

@[simp] theorem State.setMem_params (m : Memory) : (s.setMem m).params = s.params := rfl
@[simp] theorem State.setMem_ip (m : Memory) : (s.setMem m).ip = s.ip := rfl
@[simp] theorem State.setMem_halted (m : Memory) : (s.setMem m).halted = s.halted := rfl
@[simp] theorem State.setMem_cycle (m : Memory) : (s.setMem m).cycle = s.cycle := rfl
@[simp] theorem State.setMem_io (m : Memory) : (s.setMem m).io = s.io := rfl
@[simp] theorem State.setMem_mem (m : Memory) : (s.setMem m).mem = m := rfl
@[simp] theorem State.setMem_input (m : Memory) : (s.setMem m).input = s.input := rfl

@[simp] theorem State.setInput_params (q : List Cell) : (s.setInput q).params = s.params := rfl
@[simp] theorem State.setInput_ip (q : List Cell) : (s.setInput q).ip = s.ip := rfl
@[simp] theorem State.setInput_halted (q : List Cell) : (s.setInput q).halted = s.halted := rfl
@[simp] theorem State.setInput_cycle (q : List Cell) : (s.setInput q).cycle = s.cycle := rfl
@[simp] theorem State.setInput_io (q : List Cell) : (s.setInput q).io = s.io := rfl
@[simp] theorem State.setInput_mem (q : List Cell) : (s.setInput q).mem = s.mem := rfl
@[simp] theorem State.setInput_input (q : List Cell) : (s.setInput q).input = q := rfl

@[simp] theorem State.setHalted_params : s.setHalted.params = s.params := rfl
@[simp] theorem State.setHalted_ip : s.setHalted.ip = s.ip := rfl
@[simp] theorem State.setHalted_halted : s.setHalted.halted = true := rfl
@[simp] theorem State.setHalted_cycle : s.setHalted.cycle = s.cycle := rfl
@[simp] theorem State.setHalted_io : s.setHalted.io = s.io := rfl
@[simp] theorem State.setHalted_mem : s.setHalted.mem = s.mem := rfl
@[simp] theorem State.setHalted_input : s.setHalted.input = s.input := rfl

@[simp] theorem State.ioAppend_params (e : RecordedIO) : (s.ioAppend e).params = s.params := rfl
@[simp] theorem State.ioAppend_ip (e : RecordedIO) : (s.ioAppend e).ip = s.ip := rfl
@[simp] theorem State.ioAppend_halted (e : RecordedIO) : (s.ioAppend e).halted = s.halted := rfl
@[simp] theorem State.ioAppend_cycle (e : RecordedIO) : (s.ioAppend e).cycle = s.cycle := rfl
@[simp] theorem State.ioAppend_io (e : RecordedIO) : (s.ioAppend e).io = s.io ++ [e] := rfl
@[simp] theorem State.ioAppend_mem (e : RecordedIO) : (s.ioAppend e).mem = s.mem := rfl
@[simp] theorem State.ioAppend_input (e : RecordedIO) : (s.ioAppend e).input = s.input := rfl

@[simp] theorem State.advance_params (n : Nat) : (s.advance n).params = s.params := rfl
@[simp] theorem State.advance_ip (n : Nat) : (s.advance n).ip = s.ip + n := rfl
@[simp] theorem State.advance_halted (n : Nat) : (s.advance n).halted = s.halted := rfl
@[simp] theorem State.advance_cycle (n : Nat) : (s.advance n).cycle = s.cycle + 1 := rfl
@[simp] theorem State.advance_io (n : Nat) : (s.advance n).io = s.io := rfl
@[simp] theorem State.advance_mem (n : Nat) : (s.advance n).mem = s.mem := rfl
@[simp] theorem State.advance_input (n : Nat) : (s.advance n).input = s.input := rfl

end Sys2Proof.Machine
end

