-- ==== Sys2Proof/Laws/Operands.lean ====
section
/-!
SUPPORT. What the shared operations answer: memory accesses, operands, the ALU's result and the end
of a step (spec/20_memory.md R33 to R35, 40_step_dispatch R86, R87, R90, 41_arithmetic R100).
-/

namespace Sys2Proof.Machine

theorem memRead_valid {s : State} {a : Int} (h : s.ValidAddress a) :
    memRead s a = .ok (s.mem.read a.toNat) := if_pos h

theorem memRead_invalid {s : State} {a : Int} (h : ¬ s.ValidAddress a) :
    memRead s a = .error (.memoryOperationOutOfBounds a s) := if_neg h

theorem memWrite_valid {s : State} {a : Int} (h : s.ValidAddress a) (v : Cell) :
    memWrite s a v = .ok (s.setMem (s.mem.write a.toNat v)) := if_pos h

theorem memWrite_invalid {s : State} {a : Int} (h : ¬ s.ValidAddress a) (v : Cell) :
    memWrite s a v = .error (.memoryOperationOutOfBounds a s) := if_neg h

theorem memStream_valid {s : State} {a : Int} (h : s.ValidAddress a) :
    memStream s a = .ok (s.mem.cellsFrom (s.mem.length - a.toNat) a.toNat) := if_pos h

theorem memStream_invalid {s : State} {a : Int} (h : ¬ s.ValidAddress a) :
    memStream s a = .error (.memoryOperationOutOfBounds a s) := if_neg h

/-- `Resolve` answers the operand, or the bounds error of the parameter's address. -/
theorem resolve_eq (s : State) (p : Parameter) :
    resolve s p =
      if s.sourceOk p = true then .ok (s.operand p)
      else .error (.memoryOperationOutOfBounds p.raw s) := by
  cases p with
  | position a => simp [resolve, State.sourceOk, State.operand, Parameter.raw, memRead, raise]
  | immediate v => simp [resolve, State.sourceOk, State.operand]

/-- `AluResult` answers the Cell stored, or the overflow. -/
theorem aluResult_eq (s : State) (z : Int) :
    aluResult s z =
      if aluFits s.params z = true then .ok (aluValue s.params z)
      else .error (.arithmeticOverflow s) := by
  unfold aluResult aluCell aluFits aluValue raise
  by_cases h : InCellRange s.params.cellWidth z
  · rw [if_pos h, decide_eq_true h, if_pos h]
    rfl
  · rw [if_neg h, decide_eq_false h, if_neg h]
    cases s.params.overflowPolicy <;> rfl

/-- `WriteThrough` that answers wrote one cell, through a `Position` at a valid address. -/
theorem writeThrough_ok {s t : State} {p : Parameter} {v : Cell} :
    writeThrough s p v = .ok t ↔
      ∃ a, p = .position a ∧ s.ValidAddress a ∧ t = s.setMem (s.mem.write a.toNat v) := by
  cases p with
  | immediate x => simp [writeThrough, raise]
  | position a =>
    by_cases h : s.ValidAddress a
    · simp only [writeThrough, memWrite_valid h, Except.ok.injEq, Parameter.position.injEq]
      exact ⟨fun e => ⟨a, rfl, h, e.symm⟩, fun ⟨_, e, _, e'⟩ => e ▸ e'.symm⟩
    · simp only [writeThrough, memWrite_invalid h, reduceCtorEq, Parameter.position.injEq, false_iff]
      rintro ⟨_, rfl, h', _⟩
      exact h h'

/-- `WriteThrough` that fails leaves the state it was given, and fails in one of two ways. -/
theorem writeThrough_error {s : State} {p : Parameter} {v : Cell} {f : Fault}
    (h : writeThrough s p v = .error f) :
    f = .writeParameterCannotBeImmediateMode p.raw s ∨
      f = .memoryOperationOutOfBounds p.raw s := by
  cases p with
  | immediate x => exact .inl (by simpa [writeThrough, raise, Parameter.raw] using h.symm)
  | position a =>
    by_cases hv : s.ValidAddress a
    · simp [writeThrough, memWrite_valid hv] at h
    · exact .inr (by simpa [writeThrough, memWrite_invalid hv, Parameter.raw] using h.symm)

theorem finish_next {adv : Nat} {r : Except Fault State} {t : State} :
    finish adv r = .next t ↔ ∃ u, r = .ok u ∧ t = u.advance adv := by
  cases r <;> simp [finish, eq_comm]

theorem finish_fault {adv : Nat} {r : Except Fault State} {f : Fault} :
    finish adv r = .fault f ↔ r = .error f := by
  cases r <;> simp [finish]

theorem finish_not_refused {adv : Nat} {r : Except Fault State} {q : Refusal} :
    finish adv r ≠ .refused q := by
  cases r <;> simp [finish]

end Sys2Proof.Machine
end

