-- ==== Sys2Proof/Laws/Exec.lean ====
section
/-!
SUPPORT. What each instruction can do: one inversion lemma per meaning for a next state and one for
an error, and the same for `exec` and `step` (spec/40_step_dispatch.md R80 to R92).
-/

namespace Sys2Proof.Machine

/-- `Add` and `Multiply` in one line per cause, in the order of 60_exceptions R131. -/
theorem arithmetic_eq (f : Int → Int → Int) (p1 p2 pDest : Parameter) (s : State) :
    arithmetic f p1 p2 pDest s =
      if s.sourceOk p1 = false then .error (.memoryOperationOutOfBounds p1.raw s)
      else if s.sourceOk p2 = false then .error (.memoryOperationOutOfBounds p2.raw s)
      else if aluFits s.params (f (s.operand p1) (s.operand p2)) = false then
        .error (.arithmeticOverflow s)
      else writeThrough s pDest (aluValue s.params (f (s.operand p1) (s.operand p2))) := by
  unfold arithmetic
  rw [resolve_eq, resolve_eq]
  cases s.sourceOk p1 <;> cases s.sourceOk p2 <;> simp [aluResult_eq]
  cases aluFits s.params (f (s.operand p1) (s.operand p2)) <;> simp

/-- `Add` and `Multiply` that answer: both sources resolved, the result fits, one cell written. -/
theorem arithmetic_ok {f : Int → Int → Int} {p1 p2 pDest : Parameter} {s t : State}
    (h : arithmetic f p1 p2 pDest s = .ok t) :
    s.sourceOk p1 = true ∧ s.sourceOk p2 = true ∧
      aluFits s.params (f (s.operand p1) (s.operand p2)) = true ∧
      ∃ a, pDest = .position a ∧ s.ValidAddress a ∧
        t = s.setMem (s.mem.write a.toNat (aluValue s.params (f (s.operand p1) (s.operand p2)))) := by
  unfold arithmetic at h
  rw [resolve_eq, resolve_eq] at h
  by_cases h1 : s.sourceOk p1 = true
  · by_cases h2 : s.sourceOk p2 = true
    · simp only [h1, h2, if_true, aluResult_eq] at h
      by_cases h3 : aluFits s.params (f (s.operand p1) (s.operand p2)) = true
      · simp only [h3, if_true] at h
        exact ⟨h1, h2, h3, writeThrough_ok.1 h⟩
      · simp [h3] at h
    · simp [h1, h2] at h
  · simp [h1] at h

/-- `Add` and `Multiply` that fail: one of five errors, each leaving the state as it was. -/
theorem arithmetic_error {f : Int → Int → Int} {p1 p2 pDest : Parameter} {s : State} {e : Fault}
    (h : arithmetic f p1 p2 pDest s = .error e) :
    e = .memoryOperationOutOfBounds p1.raw s ∨ e = .memoryOperationOutOfBounds p2.raw s ∨
      e = .arithmeticOverflow s ∨ e = .writeParameterCannotBeImmediateMode pDest.raw s ∨
      e = .memoryOperationOutOfBounds pDest.raw s := by
  unfold arithmetic at h
  rw [resolve_eq, resolve_eq] at h
  by_cases h1 : s.sourceOk p1 = true
  · by_cases h2 : s.sourceOk p2 = true
    · simp only [h1, h2, if_true, aluResult_eq] at h
      by_cases h3 : aluFits s.params (f (s.operand p1) (s.operand p2)) = true
      · simp only [h3, if_true] at h
        rcases writeThrough_error h with rfl | rfl <;> simp
      · simp only [h3, Bool.false_eq_true, if_false, Except.error.injEq] at h
        simp [← h]
    · simp only [h1, h2, if_true, Bool.false_eq_true, if_false, Except.error.injEq] at h
      simp [← h]
  · simp only [h1, Bool.false_eq_true, if_false, Except.error.injEq] at h
    simp [← h]

/-- `Input` that answers: the front value recorded and written to one cell. -/
theorem acquire_ok {pDest : Parameter} {s t : State} (h : acquire pDest s = .ok t) :
    ∃ v rest a, s.input = v :: rest ∧ pDest = .position a ∧ s.ValidAddress a ∧
      t = ((s.setInput rest).ioAppend (.userInput v)).setMem (s.mem.write a.toNat v) := by
  unfold acquire inputFetch at h
  split at h
  · simp [raise] at h
  · rename_i v s1 hs
    split at hs
    · simp at hs
    · rename_i w rest hq
      simp only [Prod.mk.injEq, Answer.value.injEq] at hs
      obtain ⟨rfl, rfl⟩ := hs
      obtain ⟨a, hp, hv, ht⟩ := writeThrough_ok.1 h
      exact ⟨_, _, a, hq, hp, hv, ht⟩

/-- `Input` that fails: with nothing obtained the state is as it was; with a value obtained the value
is consumed and recorded and the write's error is reported. -/
theorem acquire_error {pDest : Parameter} {s : State} {f : Fault}
    (h : acquire pDest s = .error f) :
    (s.input = [] ∧ f = .inputAcquisitionFailed s) ∨
      ∃ v rest, s.input = v :: rest ∧
        (f = .writeParameterCannotBeImmediateMode pDest.raw
            ((s.setInput rest).ioAppend (.userInput v)) ∨
          f = .memoryOperationOutOfBounds pDest.raw
            ((s.setInput rest).ioAppend (.userInput v))) := by
  unfold acquire inputFetch at h
  split at h
  · rename_i s1 hs
    split at hs
    · rename_i hq
      simp only [Prod.mk.injEq, true_and] at hs
      subst hs
      exact .inl ⟨hq, by simpa [raise] using h.symm⟩
    · simp at hs
  · rename_i v s1 hs
    split at hs
    · simp at hs
    · rename_i w rest hq
      simp only [Prod.mk.injEq, Answer.value.injEq] at hs
      obtain ⟨rfl, rfl⟩ := hs
      exact .inr ⟨_, _, hq, writeThrough_error h⟩

/-- `Output` that answers: the operand recorded. -/
theorem emit_ok {pSrc : Parameter} {s t : State} (h : emit pSrc s = .ok t) :
    s.sourceOk pSrc = true ∧ t = s.ioAppend (.output (s.operand pSrc)) := by
  unfold emit at h
  rw [resolve_eq] at h
  by_cases h1 : s.sourceOk pSrc = true
  · simp only [h1, if_true] at h
    exact ⟨h1, by simpa using h.symm⟩
  · simp [h1] at h

/-- `Output` that fails: the bounds error of its address, and the state as it was. -/
theorem emit_error {pSrc : Parameter} {s : State} {f : Fault} (h : emit pSrc s = .error f) :
    s.sourceOk pSrc = false ∧ f = .memoryOperationOutOfBounds pSrc.raw s := by
  unfold emit at h
  rw [resolve_eq] at h
  by_cases h1 : s.sourceOk pSrc = true
  · simp [h1] at h
  · simp only [h1] at h
    exact ⟨by simpa using h1, by simpa using h.symm⟩

/-- `Halt` answers always. -/
theorem exec_halt_next {s t : State} : exec .halt s = .next t ↔ t = s.setHalted.advance 0 := by
  constructor
  · intro h
    cases h
    rfl
  · rintro rfl
    rfl

/-- `Halt` raises nothing. -/
theorem exec_halt_not_fault {s : State} {f : Fault} : exec .halt s ≠ .fault f := fun h => by cases h

/-- No meaning refuses. -/
theorem exec_not_refused (i : Instr) (s : State) (q : Refusal) : exec i s ≠ .refused q := by
  cases i with
  | halt => exact fun h => finish_not_refused (adv := 0) (r := .ok s.setHalted) h
  | _ => exact finish_not_refused

/-- What a step can do: fetch an instruction and execute it, or end with an error. -/
theorem step_cases (s : State) :
    (∃ i, fetchInstr s = .ok i ∧ step s = exec i s) ∨
      (∃ f, fetchInstr s = .error f ∧ step s = .fault f) := by
  unfold step
  cases h : fetchInstr s with
  | ok i => exact .inl ⟨i, rfl, rfl⟩
  | error f => exact .inr ⟨f, rfl, rfl⟩

theorem step_of_fetch {s : State} {i : Instr} (h : fetchInstr s = .ok i) : step s = exec i s := by
  simp [step, h]

/-- A step that answers a next state executed the instruction it fetched. -/
theorem step_next {s t : State} (h : step s = .next t) :
    ∃ i, fetchInstr s = .ok i ∧ exec i s = .next t := by
  rcases step_cases s with ⟨i, hi, hs⟩ | ⟨f, _, hs⟩
  · exact ⟨i, hi, hs ▸ h⟩
  · rw [hs] at h
    cases h

/-- Fetching answers when the machine is Running, `ip < L`, and the cells from `ip` decode. -/
theorem fetchInstr_ok {s : State} {i : Instr} :
    fetchInstr s = .ok i ↔
      s.halted = false ∧ s.ip < s.mem.length ∧
        ∃ n, decode (s.mem.cellsFrom (s.mem.length - s.ip) s.ip) = .ok (i, n) := by
  unfold fetchInstr
  cases hh : s.halted with
  | true => simp [raise]
  | false =>
    by_cases hv : s.ip < s.mem.length
    · have hv' : s.ValidAddress s.ip := ⟨by omega, by omega⟩
      rw [memStream_valid hv']
      simp only [Bool.false_eq_true, if_false, Int.toNat_natCast, hv, true_and]
      cases hd : decode (s.mem.cellsFrom (s.mem.length - s.ip) s.ip) with
      | error e => simp [raise]
      | ok r => obtain ⟨j, n⟩ := r; simp
    · have hv' : ¬ s.ValidAddress s.ip := fun h => hv (by have := h.2; omega)
      rw [memStream_invalid hv']
      simp [hv]

/-- Fetching from a Running machine with `ip < L`: the decoder on the header and the cells after it. -/
theorem fetchInstr_running {s : State} (h : s.halted = false) (hip : s.ip < s.mem.length) :
    fetchInstr s =
      match decode (s.mem.read s.ip ::
          s.mem.cellsFrom (s.mem.length - (s.ip + 1)) (s.ip + 1)) with
      | .ok (i, _) => .ok i
      | .error e => .error (decodeFault e s) := by
  have hv : s.ValidAddress s.ip := ⟨by omega, by omega⟩
  obtain ⟨k, hk⟩ : ∃ k, s.mem.length - s.ip = k + 1 := ⟨s.mem.length - s.ip - 1, by omega⟩
  have hk' : s.mem.length - (s.ip + 1) = k := by omega
  unfold fetchInstr
  rw [memStream_valid hv]
  simp only [h, Bool.false_eq_true, if_false, Int.toNat_natCast, hk, hk', Memory.cellsFrom]
  split <;> simp_all [raise]

/-- An error before execution leaves the state as it was. -/
theorem fetchInstr_error {s : State} {f : Fault} (h : fetchInstr s = .error f) : f.left = s := by
  unfold fetchInstr at h
  split at h
  · simp only [raise, Except.error.injEq] at h
    subst h
    rfl
  · split at h
    · rename_i g hg
      simp only [Except.error.injEq] at h
      subst h
      unfold memStream raise at hg
      split at hg
      · cases hg
      · simp only [Except.error.injEq] at hg
        subst hg
        rfl
    · split at h
      · rename_i e _
        simp only [raise, Except.error.injEq] at h
        subst h
        cases e <;> rfl
      · cases h

end Sys2Proof.Machine
end

