-- ==== Sys2Proof/Laws/Memory.lean ====
section
/-!
SUPPORT. Memory: read after write, what a write leaves alone, the canonical form and that every
memory operation keeps it (spec/20_memory.md R33 to R38).
-/

namespace Sys2Proof.Machine

/-! ## Lists of pairs -/

theorem lookupCell_consCell_other {a b : Nat} (h : b ≠ a) (v : Cell) (rest : List (Nat × Cell)) :
    lookupCell (consCell a v rest) b = lookupCell rest b := by
  unfold consCell
  split
  · rfl
  · simp [lookupCell, Ne.symm h]

theorem lookupCell_storeCell_other (cs : List (Nat × Cell)) {a b : Nat} (h : b ≠ a) (v : Cell) :
    lookupCell (storeCell cs a v) b = lookupCell cs b := by
  induction cs with
  | nil => simp [storeCell, lookupCell_consCell_other h]
  | cons c rest ih =>
    obtain ⟨k, u⟩ := c
    simp only [storeCell]
    split
    · exact lookupCell_consCell_other h v _
    · split
      · rename_i hk
        subst hk
        rw [lookupCell_consCell_other h]
        simp [lookupCell, Ne.symm h]
      · simp only [lookupCell, ih]

/-- Nothing is listed below the lower bound of a canonical list. -/
theorem lookupCell_below {hi lo : Nat} {cs : List (Nat × Cell)} (h : canonicalCells hi lo cs = true)
    {a : Nat} (ha : a < lo) : lookupCell cs a = unlistedCell := by
  induction cs generalizing lo with
  | nil => rfl
  | cons c rest ih =>
    obtain ⟨k, u⟩ := c
    simp only [canonicalCells, Bool.and_eq_true, decide_eq_true_eq] at h
    obtain ⟨⟨⟨h1, _⟩, _⟩, h4⟩ := h
    rw [lookupCell, if_neg (by omega)]
    exact ih h4 (by omega)

theorem lookupCell_consCell_same {hi lo : Nat} {rest : List (Nat × Cell)}
    (h : canonicalCells hi lo rest = true) {a : Nat} (ha : a < lo) (v : Cell) :
    lookupCell (consCell a v rest) a = v := by
  unfold consCell
  split
  · rename_i hv
    rw [hv, lookupCell_below h ha]
  · simp [lookupCell]

theorem lookupCell_storeCell_same {hi lo : Nat} {cs : List (Nat × Cell)}
    (h : canonicalCells hi lo cs = true) (a : Nat) (v : Cell) :
    lookupCell (storeCell cs a v) a = v := by
  induction cs generalizing lo with
  | nil => exact lookupCell_consCell_same (hi := hi) (lo := a + 1) rfl (Nat.lt_succ_self a) v
  | cons c rest ih =>
    obtain ⟨k, u⟩ := c
    have h' := h
    simp only [canonicalCells, Bool.and_eq_true, decide_eq_true_eq] at h
    obtain ⟨⟨⟨_, h2⟩, h3⟩, h4⟩ := h
    simp only [storeCell]
    split
    · rename_i hk
      refine lookupCell_consCell_same (hi := hi) (lo := k) ?_ hk v
      simp [canonicalCells, h2, h3, h4]
    · split
      · rename_i hk
        subst hk
        exact lookupCell_consCell_same h4 (Nat.lt_succ_self a) v
      · rename_i hk
        rw [lookupCell, if_neg (by omega)]
        exact ih h4

/-- A canonical list stays canonical under weaker bounds. -/
theorem canonicalCells_mono {hi hi' lo lo' : Nat} (hh : hi ≤ hi') (hl : lo' ≤ lo)
    {cs : List (Nat × Cell)} (h : canonicalCells hi lo cs = true) :
    canonicalCells hi' lo' cs = true := by
  induction cs generalizing lo lo' with
  | nil => rfl
  | cons c rest ih =>
    obtain ⟨k, u⟩ := c
    simp only [canonicalCells, Bool.and_eq_true, decide_eq_true_eq] at h ⊢
    obtain ⟨⟨⟨h1, h2⟩, h3⟩, h4⟩ := h
    exact ⟨⟨⟨by omega, by omega⟩, h3⟩, ih (Nat.le_refl _) h4⟩

theorem canonicalCells_consCell {hi lo a : Nat} (hlo : lo ≤ a) (hhi : a < hi) (v : Cell)
    {rest : List (Nat × Cell)} (h : canonicalCells hi (a + 1) rest = true) :
    canonicalCells hi lo (consCell a v rest) = true := by
  unfold consCell
  split
  · exact canonicalCells_mono (Nat.le_refl _) (by omega) h
  · rename_i hv
    simp [canonicalCells, hlo, hhi, hv, h]

theorem canonicalCells_storeCell {hi lo a : Nat} (hlo : lo ≤ a) (hhi : a < hi) (v : Cell)
    {cs : List (Nat × Cell)} (h : canonicalCells hi lo cs = true) :
    canonicalCells hi lo (storeCell cs a v) = true := by
  induction cs generalizing lo with
  | nil => exact canonicalCells_consCell hlo hhi v rfl
  | cons c rest ih =>
    obtain ⟨k, u⟩ := c
    simp only [canonicalCells, Bool.and_eq_true, decide_eq_true_eq] at h
    obtain ⟨⟨⟨h1, h2⟩, h3⟩, h4⟩ := h
    simp only [storeCell]
    split
    · refine canonicalCells_consCell hlo hhi v ?_
      simp only [canonicalCells, Bool.and_eq_true, decide_eq_true_eq]
      exact ⟨⟨⟨by omega, h2⟩, h3⟩, h4⟩
    · split
      · rename_i hk
        subst hk
        exact canonicalCells_consCell hlo hhi v h4
      · simp only [canonicalCells, Bool.and_eq_true, decide_eq_true_eq]
        exact ⟨⟨⟨h1, h2⟩, h3⟩, ih (by omega) h4⟩

/-- The pairs of a list after a store are pairs of the list, or the pair stored. -/
theorem mem_storeCell {cs : List (Nat × Cell)} {a : Nat} {v : Cell} {c : Nat × Cell}
    (h : c ∈ storeCell cs a v) : c ∈ cs ∨ c = (a, v) := by
  induction cs with
  | nil =>
    simp only [storeCell, consCell] at h
    split at h <;> simp_all
  | cons d rest ih =>
    obtain ⟨k, u⟩ := d
    simp only [storeCell, consCell] at h
    split at h
    · split at h <;> simp_all [or_comm]
    · split at h
      · split at h <;> simp_all
        rcases h with h | h <;> simp [h]
      · rcases List.mem_cons.1 h with h | h
        · exact .inl (by simp [h])
        · rcases ih h with h | h
          · exact .inl (by simp [h])
          · exact .inr h

/-- A cell read is listed, or is what an unlisted address holds. -/
theorem lookupCell_mem (cs : List (Nat × Cell)) (a : Nat) :
    lookupCell cs a = unlistedCell ∨ (a, lookupCell cs a) ∈ cs := by
  induction cs with
  | nil => exact .inl rfl
  | cons c rest ih =>
    obtain ⟨k, u⟩ := c
    simp only [lookupCell]
    split
    · rename_i hk
      exact .inr (by simp [hk])
    · exact ih.imp id (List.mem_cons_of_mem _)

/-! ## Memories -/

@[simp] theorem Memory.write_length (m : Memory) (a : Nat) (v : Cell) :
    (m.write a v).length = m.length := rfl

theorem Memory.read_write_other (m : Memory) {a b : Nat} (h : b ≠ a) (v : Cell) :
    (m.write a v).read b = m.read b := lookupCell_storeCell_other m.cells h v

theorem Memory.read_write_same {m : Memory} (h : m.wf = true) (a : Nat) (v : Cell) :
    (m.write a v).read a = v := lookupCell_storeCell_same h a v

/-- A write below `L` keeps the canonical form. -/
theorem Memory.wf_write {m : Memory} (h : m.wf = true) {a : Nat} (ha : a < m.length) (v : Cell) :
    (m.write a v).wf = true := canonicalCells_storeCell (Nat.zero_le a) ha v h

theorem imageCells_canonical (a : Nat) (P : List Cell) {hi : Nat} (h : a + P.length ≤ hi) :
    canonicalCells hi a (imageCells a P) = true := by
  induction P generalizing a with
  | nil => rfl
  | cons c cs ih =>
    rw [List.length_cons] at h
    exact canonicalCells_consCell (Nat.le_refl a) (by omega) c (ih (a + 1) (by omega))

theorem lookupCell_imageCells (a : Nat) (P : List Cell) (k : Nat) :
    lookupCell (imageCells a P) (a + k) = P.getD k unlistedCell := by
  induction P generalizing a k with
  | nil => simp [imageCells, lookupCell]
  | cons c cs ih =>
    have hc : canonicalCells (a + 1 + cs.length) (a + 1) (imageCells (a + 1) cs) = true :=
      imageCells_canonical (a + 1) cs (Nat.le_refl _)
    cases k with
    | zero => simp [imageCells, lookupCell_consCell_same hc (Nat.lt_succ_self a)]
    | succ k =>
      have := ih (a + 1) k
      rw [imageCells, lookupCell_consCell_other (by omega)]
      simpa [Nat.add_assoc, Nat.add_comm 1 k] using this

/-- Construction gives memory in canonical form. -/
theorem Memory.wf_ofImage (P : List Cell) : (Memory.ofImage P).wf = true :=
  imageCells_canonical 0 P (by simp [Memory.ofImage])

/-- Making a memory longer keeps the canonical form. -/
theorem Memory.wf_grow {m : Memory} (h : m.wf = true) (n : Nat) :
    ({ m with length := max m.length n } : Memory).wf = true :=
  canonicalCells_mono (Nat.le_max_left _ _) (Nat.le_refl 0) h

/-- Placing cells keeps the canonical form. -/
theorem Memory.wf_place {m : Memory} (h : m.wf = true) (a : Nat) (cs : List Cell) :
    (m.place a cs).wf = true := by
  induction cs generalizing m a with
  | nil => exact h
  | cons c cs ih =>
    exact ih (Memory.wf_write (Memory.wf_grow h (a + 1)) (Nat.lt_of_lt_of_le (Nat.lt_succ_self a) (Nat.le_max_right _ _)) c) (a + 1)

/-- The memory of the reset state is in canonical form. -/
theorem State.reset_mem_wf : State.reset.mem.wf = true := rfl

/-! ## Streams -/

@[simp] theorem Memory.cellsFrom_length (m : Memory) (n a : Nat) :
    (m.cellsFrom n a).length = n := by
  induction n generalizing a with
  | zero => rfl
  | succ n ih => simp [Memory.cellsFrom, ih]

theorem Memory.cellsFrom_getElem? (m : Memory) {n k : Nat} (a : Nat) (h : k < n) :
    (m.cellsFrom n a)[k]? = some (m.read (a + k)) := by
  induction n generalizing a k with
  | zero => omega
  | succ n ih =>
    cases k with
    | zero => simp [Memory.cellsFrom]
    | succ k =>
      have := ih (k := k) (a + 1) (by omega)
      simpa [Memory.cellsFrom, Nat.add_assoc, Nat.add_comm 1 k] using this

/-- The cells a stream yields are what repeated pulls on memory yield. -/
theorem Memory.cellsFrom_pull (m : Memory) (c : Nat) :
    m.cellsFrom (m.length - c) c =
      match m.pull c with
      | none => []
      | some (x, c') => x :: m.cellsFrom (m.length - c') c' := by
  unfold Memory.pull
  split
  · rename_i h
    split at h
    · cases h
    · rw [Nat.sub_eq_zero_of_le (by omega)]
      rfl
  · rename_i h
    split at h
    · cases h
      rename_i hc
      rw [show m.length - c = (m.length - (c + 1)) + 1 by omega]
      rfl
    · cases h

end Sys2Proof.Machine
end

