-- ==== Sys2Proof/Laws/PerInstr.lean ====
section
/-!
SUPPORT. Per-instruction families. `EncodingFits`: the canonical encoding of an instruction has the
instruction's length, and the words of a well-formed instruction are Cells (spec/30_encoding.md R68,
R71, R75).
-/

namespace Sys2Proof.Laws.EncodingFits

def Statement (i : Instr) : Prop :=
  (encode i).length = i.length ∧
    ∀ W, 32 ≤ W → i.wellFormed W = true → ∀ c ∈ encode i, InCellRange W c

theorem modeString_lt (ms : List Mode) : modeString ms < 10 ^ ms.length := by
  induction ms with
  | nil => simp [modeString]
  | cons m ms ih =>
    have : m.digit ≤ 1 := by cases m <;> simp [Mode.digit]
    simp only [modeString, List.length_cons, Nat.pow_succ]
    omega

theorem headerWord_lt (i : Instr) : i.headerWord < 100000 := by
  have h1 : i.opcode.number ≤ 99 := by cases i <;> simp [Instr.opcode, Opcode.number]
  have h2 := modeString_lt (i.parameters.map Parameter.mode)
  have h3 : (i.parameters.map Parameter.mode).length ≤ 3 := by cases i <;> simp [Instr.parameters]
  have h4 : 10 ^ (i.parameters.map Parameter.mode).length ≤ 10 ^ 3 :=
    Nat.pow_le_pow_right (by omega) h3
  unfold Instr.headerWord
  omega

theorem headerWord_inCellRange (i : Instr) {W : Nat} (h : 32 ≤ W) :
    InCellRange W (i.headerWord : Cell) := by
  have h1 := headerWord_lt i
  have h2 : (2 : Int) ^ 31 ≤ 2 ^ (W - 1) := pow_le_pow_right₀ (by norm_num) (by omega)
  have h3 : (2 : Int) ^ 31 = 2147483648 := by norm_num
  constructor
  · unfold cellMin
    omega
  · unfold cellMax
    omega

theorem encode_length (i : Instr) : (encode i).length = i.length := by
  cases i <;> simp [encode, Instr.length, Instr.parameters, Instr.opcode, Opcode.paramCount]

theorem encode_inCellRange (i : Instr) (W : Nat) (hW : 32 ≤ W) (h : i.wellFormed W = true) :
    ∀ c ∈ encode i, InCellRange W c := by
  intro c hc
  rcases List.mem_cons.1 hc with rfl | hc
  · exact headerWord_inCellRange i hW
  · obtain ⟨p, hp, rfl⟩ := List.mem_map.1 hc
    exact of_decide_eq_true (List.all_eq_true.1 h p hp)

theorem add (p1 p2 pDest : Parameter) : Statement (.add p1 p2 pDest) :=
  ⟨encode_length _, encode_inCellRange _⟩

theorem multiply (p1 p2 pDest : Parameter) : Statement (.multiply p1 p2 pDest) :=
  ⟨encode_length _, encode_inCellRange _⟩

theorem input (pDest : Parameter) : Statement (.input pDest) :=
  ⟨encode_length _, encode_inCellRange _⟩

theorem output (pSrc : Parameter) : Statement (.output pSrc) :=
  ⟨encode_length _, encode_inCellRange _⟩

theorem halt : Statement .halt := ⟨encode_length _, encode_inCellRange _⟩

end Sys2Proof.Laws.EncodingFits
end

