-- ==== Sys2Proof/Machine/Assembler.lean ====
section
/-!
DEFINITION. Reading the assembler notation (spec/30_encoding.md R76): one statement a line, operands
`[a]` and `#v` parted by commas, `; ...` a comment. On blanks, on lines that hold no statement, and on
what text is refused R76 is silent: DESIGN CHOICE, log entry 11.
-/

namespace Sys2Proof.Machine

/-- Space or tab: what may stand between the parts of a line (DESIGN CHOICE, log entry 11). -/
def isBlank (c : Char) : Bool := c = ' ' || c = '\t'

/-- Without leading and trailing blanks. -/
def trimBlanks (t : List Char) : List Char :=
  ((t.dropWhile isBlank).reverse.dropWhile isBlank).reverse

/-- An operand: `[a]` for `Position(a)`, `#v` for `Immediate(v)`. -/
def parseOperand (t : List Char) : Option Parameter :=
  match t with
  | [] => none
  | c :: cs =>
    if c = '#' then (parseInteger (trimBlanks cs)).map .immediate
    else if c = '[' then
      match cs.reverse with
      | [] => none
      | d :: ds =>
        if d = ']' then (parseInteger (trimBlanks ds.reverse)).map .position else none
    else none

/-- Every element, or none where one is missing. -/
def allSome {α : Type} : List (Option α) → Option (List α)
  | [] => some []
  | none :: _ => none
  | some x :: rest => (allSome rest).map (x :: ·)

/-- The operands of a statement: the text after its mnemonic, split at the commas. -/
def parseOperands (t : List Char) : Option (List Parameter) :=
  if trimBlanks t = [] then some []
  else allSome ((splitAtChar ',' t).map (fun u => parseOperand (trimBlanks u)))

/-- An instruction from its mnemonic and operands. -/
def instrOf (mnemonic : List Char) (ps : List Parameter) : Option Instr :=
  match ps with
  | [] => if mnemonic = "HALT".toList then some .halt else none
  | [p] =>
    if mnemonic = "INPUT".toList then some (.input p)
    else if mnemonic = "OUTPUT".toList then some (.output p)
    else none
  | [p, q, r] =>
    if mnemonic = "ADD".toList then some (.add p q r)
    else if mnemonic = "MULTIPLY".toList then some (.multiply p q r)
    else none
  | _ => none

/-- One line without its comment: one statement, or none where it is not in the notation. A line that
holds blanks or a comment alone is no statement and is not refused, a case R76 is silent on: DESIGN
CHOICE, log entry 11. -/
def parseLine (line : List Char) : Option (List AsmStatement) :=
  let t := trimBlanks (line.takeWhile (fun c => c ≠ ';'))
  let mnemonic := t.takeWhile (fun c => !isBlank c)
  let operands := t.dropWhile (fun c => !isBlank c)
  if t = [] then some []
  else if mnemonic = "DATA".toList then
    (parseInteger (trimBlanks operands)).map (fun v => [.data v])
  else
    match parseOperands operands with
    | none => none
    | some ps => (instrOf mnemonic ps).map (fun i => [.instruction i])

/-- The statements of a text, or none where one line is not in the notation (DESIGN CHOICE, log entry
11: the whole text is then refused). -/
def parseAssembly (text : List Char) : Option (List AsmStatement) :=
  (allSome ((splitAtChar '\n' text).map parseLine)).map List.flatten

end Sys2Proof.Machine
end

