-- ==== Sys2Proof/Tests/Slice0.lean ====
section
/-!
SUPPORT. The model's own tests. Expected results are those of spec/95_test_vectors.md, named in each
docstring, or were worked out by hand from the rules. The theorems named `witness_<Statement>` show
for each statement with hypotheses a concrete state and operands that meet them, one part a clause.
-/

namespace Sys2Proof.Tests

open Sys2Proof.Machine

/-- The reset state on an image, with a script of inputs and the default parameters. -/
def img (P : List Cell) (q : List Cell := []) : State := construct defaultParams P q

/-- The same under policy `wrap`. -/
def imgWrap (P : List Cell) : State := construct ⟨32, .wrap⟩ P []

/-! ## Well-formedness -/

theorem test_wellFormed : (Instr.add (.position (-2147483648)) (.immediate 2147483647) (.immediate 0)).wellFormed 32 = true := by decide

theorem test_illFormed_parameter_0 : (Instr.add (.position 2147483648) (.immediate 0) (.position 0)).wellFormed 32 = false := by decide

theorem test_illFormed_parameter_1 : (Instr.multiply (.position 0) (.immediate (-2147483649)) (.position 0)).wellFormed 32 = false := by decide

theorem test_illFormed_parameter_2 : (Instr.add (.position 0) (.immediate 0) (.position 2147483648)).wellFormed 32 = false := by decide

theorem test_illFormed_input : (Instr.input (.position 2147483648)).wellFormed 32 = false := by decide

theorem test_illFormed_output : (Instr.output (.immediate (-2147483649))).wellFormed 32 = false := by decide

/-! ## Decoding (95_test_vectors sections 1 and 2) -/

/-- E1 and 2.1: `Multiply` and `Add` words. -/
theorem test_decode_arithmetic :
    decode [1002, 4, 3, 4, 33] = .ok (.multiply (.position 4) (.immediate 3) (.position 4), 4) ∧
    decode [10002, 1, 2, 3] = .ok (.multiply (.position 1) (.position 2) (.immediate 3), 4) ∧
    decode [101, 5, 6, 7] = .ok (.add (.immediate 5) (.position 6) (.position 7), 4) ∧
    decode [11101, 7, 8, 9] = .ok (.add (.immediate 7) (.immediate 8) (.immediate 9), 4) ∧
    decode [1, -1, 2147483647, -2147483648] =
      .ok (.add (.position (-1)) (.position 2147483647) (.position (-2147483648)), 4) := by decide

/-- 2.1: `Input`, `Output`, `Halt` words. -/
theorem test_decode_io_halt :
    decode [3, 50] = .ok (.input (.position 50), 2) ∧
    decode [103, 5] = .ok (.input (.immediate 5), 2) ∧
    decode [104, -7] = .ok (.output (.immediate (-7)), 2) ∧
    decode [4, -2] = .ok (.output (.position (-2)), 2) ∧
    decode [99, 1, 2, 3] = .ok (.halt, 1) := by decide

/-- 2.2: extra mode digits 0 and 1. -/
theorem test_decode_noncanonical :
    decode [1199] = .ok (.halt, 1) ∧ decode [1003, 9] = .ok (.input (.position 9), 2) ∧
    decode [1104, 5] = .ok (.output (.immediate 5), 2) ∧
    decode [1111111101, 1, 2, 3] =
      .ok (.add (.immediate 1) (.immediate 2) (.immediate 3), 4) := by decide

/-- 2.3: `UnknownOpcode`. -/
theorem test_decode_unknownOpcode :
    decode [0] = .error (.unknownOpcode 0) ∧ decode [98] = .error (.unknownOpcode 98) ∧
    decode [100] = .error (.unknownOpcode 100) ∧ decode [755] = .error (.unknownOpcode 755) ∧
    decode [2147483647] = .error (.unknownOpcode 2147483647) ∧
    decode [-1] = .error (.unknownOpcode (-1)) ∧ decode [-99] = .error (.unknownOpcode (-99)) := by
  decide

/-- 2.4: `UnknownParameterMode`. -/
theorem test_decode_unknownMode :
    decode [1202, 1, 1, 1] = .error (.unknownParameterMode 1202) ∧
    decode [30001, 1, 1, 1] = .error (.unknownParameterMode 30001) ∧
    decode [299] = .error (.unknownParameterMode 299) ∧
    decode [200001, 5, 6, 7] = .error (.unknownParameterMode 200001) ∧
    decode [203] = .error (.unknownParameterMode 203) := by decide

/-- 2.5: `InstructionDecodeFailed`. -/
theorem test_decode_truncated :
    decode [] = .error .instructionDecodeFailed ∧
    decode [1, 0, 0] = .error .instructionDecodeFailed ∧
    decode [104] = .error .instructionDecodeFailed := by decide

/-- 2.7: the encoder. -/
theorem test_encode :
    encode (.add (.immediate 90) (.immediate 9) (.position 4)) = [1101, 90, 9, 4] ∧
    encode (.multiply (.immediate (-1)) (.position 9) (.position 9)) = [102, -1, 9, 9] ∧
    encode (.add (.position 1) (.position 2) (.immediate 3)) = [10001, 1, 2, 3] ∧
    encode (.input (.immediate 5)) = [103, 5] ∧ encode (.output (.immediate (-7))) = [104, -7] ∧
    encode .halt = [99] := by decide

/-- 30_encoding R76, R77: P4 as assembled, and the notation of one of its statements. -/
theorem test_assemble :
    assembleProgram [.instruction (.add (.immediate 90) (.immediate 9) (.position 4)), .data 0] =
      [1101, 90, 9, 4, 0] ∧
    (Instr.add (.immediate 90) (.immediate 9) (.position 4)).assembly = "ADD #90, #9, [4]" := by
  decide

/-- P4 and part of P2 as text. -/
theorem test_parseAssembly :
    (parseAssembly "ADD #90, #9, [4]\nDATA 0".toList).map assembleProgram = some [1101, 90, 9, 4, 0] ∧
    (parseAssembly "OUTPUT #-7   ; a comment\nHALT".toList).map assembleProgram = some [104, -7, 99] ∧
    parseAssembly "ADD [1], [2]".toList = none := by decide

/-- The table's numbering: `Output` with header 4, and `ADD #-5, #3, [0]` laid out in 32-bit words. -/
theorem test_tableWord :
    decodeTableWord 8 4 = some (.output (.position 0)) ∧
    decodeTableWord 8 99 = some .halt ∧
    decodeTableWord 128 (1101 + 2 ^ 32 * (2 ^ 32 - 5) + 2 ^ 64 * 3) =
      some (.add (.immediate (-5)) (.immediate 3) (.position 0)) ∧
    decodeTableWord 8 5 = none := by decide

theorem test_withFetchWord_output :
    step (State.reset.withFetchWord 8 4) =
      exec (.output (.position 0)) (State.reset.withFetchWord 8 4) := rfl

theorem test_withFetchWord_halt :
    step (State.reset.withFetchWord 8 99) = exec .halt (State.reset.withFetchWord 8 99) := rfl

/-! ## One step of each instruction (95_test_vectors sections 1 to 6) -/

/-- E2: an `Add` that overwrites its own header. -/
theorem test_add_own_header :
    step (img [1, 0, 0, 0, 99]) =
      .next { img [2, 0, 0, 0, 99] with ip := 4, cycle := 1 } := rfl

/-- V1: overflow under both policies. -/
theorem test_add_overflow :
    step (img [1101, 2147483647, 1, 0, 99]) =
      .fault (.arithmeticOverflow (img [1101, 2147483647, 1, 0, 99])) ∧
    step (imgWrap [1101, 2147483647, 1, 0, 99]) =
      .next { imgWrap [-2147483648, 2147483647, 1, 0, 99] with ip := 4, cycle := 1 } := ⟨rfl, rfl⟩

/-- E4: `Multiply`, with a `Halt` word read as data. -/
theorem test_multiply :
    step (img [2, 4, 4, 5, 99, 0]) =
      .next { img [2, 4, 4, 5, 99, 9801] with ip := 4, cycle := 1 } := rfl

/-- F5: a zero factor does not skip the other read. -/
theorem test_multiply_zero_reads :
    step (img [102, 0, 9, 0, 99]) =
      .fault (.memoryOperationOutOfBounds 9 (img [102, 0, 9, 0, 99])) := rfl

/-- I2: one value per `Input`. -/
theorem test_input :
    step (img [3, 0, 99] [5, 6]) =
      .next { img [5, 0, 99] [6] with ip := 2, cycle := 1, io := [.userInput 5] } := rfl

/-- I5: the value is consumed and recorded when the write fails. -/
theorem test_input_immediate_destination :
    step (img [103, 5, 99] [9]) =
      .fault (.writeParameterCannotBeImmediateMode 5
        { img [103, 5, 99] with io := [.userInput 9] }) := rfl

/-- O1: a negative literal. -/
theorem test_output_literal :
    step (img [104, -7, 99]) =
      .next { img [104, -7, 99] with ip := 2, cycle := 1, io := [.output (-7)] } := rfl

/-- O5: a negative address. -/
theorem test_output_negative_address :
    step (img [4, -2, 99]) =
      .fault (.memoryOperationOutOfBounds (-2) (img [4, -2, 99])) := rfl

/-- H1: `Halt` advances by 0 and counts as executed. -/
theorem test_halt :
    step (img [99]) = .next { img [99] with halted := true, cycle := 1 } := rfl

/-- H5: a step after `Halt`. -/
theorem test_step_after_halt :
    step { img [99] with halted := true, cycle := 1 } =
      .fault (.stepWhileHalted { img [99] with halted := true, cycle := 1 }) := rfl

/-- M7: a write to the next header is seen by the next fetch. -/
theorem test_fetch_sees_write :
    fetchInstr { img [1101, 1, 1, 4, 2, 0, 0, 0] with ip := 4, cycle := 1 } =
      .ok (.multiply (.position 0) (.position 0) (.position 0)) := by decide

/-- P5: running off the end. -/
theorem test_run_off_the_end :
    runToEnd (img [1, 0, 0, 0]) =
      .faulted (.memoryOperationOutOfBounds 4 { img [2, 0, 0, 0] with ip := 4, cycle := 1 }) := by
  decide

/-- R150's examples of the loader. -/
theorem test_loadText :
    loadText defaultParams ['1', ',', '0', ',', '9', '9', ',', '\n'] = [1, 0, 99] ∧
    loadText defaultParams ['1', ',', 'x', ',', ' ', '-', '2'] = [1, -2] ∧
    loadText defaultParams [] = [] := by decide

/-- The error port shows code and info (R119): F6. -/
theorem test_errorPort :
    errorPort (step (img [10001, 9, 0, 0, 99])) = some (3, 9) := rfl

/-! ## Witnesses of the statements' hypotheses -/

/-- The premises of the iff of an unknown opcode, at both its causes and at the boundary -1. -/
theorem witness_UnknownOpcodeExactly :
    (img [755]).halted = false ∧ (img [755]).ip < (img [755]).mem.length ∧
    step (img [755]) = .fault (.unknownOpcode 755 (img [755])) ∧
    step (img [-1]) = .fault (.unknownOpcode (-1) (img [-1])) := ⟨rfl, by decide, rfl, rfl⟩

theorem witness_NegativeHeaderRaisesUnknownOpcode : (-1 : Cell) < 0 ∧ (-2147483648 : Cell) < 0 := by
  decide

theorem witness_UnknownParameterModeExactly :
    step (img [299]) = .fault (.unknownParameterMode 299 (img [299])) ∧
    2 ≤ (299 : Cell).toNat / 100 / 10 ^ 0 % 10 := ⟨rfl, by decide⟩

/-- The boundary `ip + n = L`. -/
theorem witness_InstructionDecodeFailedExactly :
    step (img [1, 0, 0]) = .fault (.instructionDecodeFailed 0 (img [1, 0, 0])) ∧
    decodeHeader 1 = .ok (.add, []) ∧
    (img [1, 0, 0]).mem.length = (img [1, 0, 0]).ip + Opcode.add.paramCount := ⟨rfl, rfl, rfl⟩

theorem witness_LegalHeaderWordsExactly : decodeHeader 10002 = .ok (.multiply, [.position, .position, .immediate]) := by
  decide

theorem witness_ModeDigitsDecoded :
    decodeAll 101 = some [.immediate, .position, .immediate] ∧
    decodeAll 120 = none ∧ Mode.ofDigit (120 / 10 ^ 1 % 10) = none := by decide

theorem witness_ParametersFollowModeDigits :
    decode [10102, 7, 8, 9] = .ok (.multiply (.immediate 7) (.position 8) (.immediate 9), 4) ∧
    (10102 : Cell).toNat / 100 / 10 ^ 2 % 10 = 1 := by decide

/-- The hypotheses of the first three clauses. -/
theorem witness_FewerOrMoreModeDigits :
    (decode [104, 5] = .ok (.output (.immediate 5), 2) ∧ decode [4, 5] = .ok (.output (.position 5), 2) ∧
      (Instr.output (.position 5)).parameters[0]? = some (.position 5) ∧ (4 : Cell).toNat / 100 < 10 ^ 0) ∧
    (Opcode.ofNumber ((299 : Cell).toNat % 100) = some .halt ∧ Opcode.halt.paramCount ≤ 0 ∧
      2 ≤ (299 : Cell).toNat / 100 / 10 ^ 0 % 10) ∧
    decodeHeader 11101 = .ok (.add, [.immediate, .immediate, .immediate]) ∧
      (11101 : Cell).toNat < 10 ^ (2 + Opcode.add.paramCount) ∧
      decode [(11101 : Cell) + (1 * 10 ^ (2 + Opcode.add.paramCount) : Nat), 1, 2, 3] =
        decode [11101, 1, 2, 3] := by decide

/-- The third clause's premise on the extra digits, at `e = 1`. -/
theorem witness_extra_digits (k : Nat) : 1 / 10 ^ k % 10 ≤ 1 :=
  Nat.le_trans (Nat.mod_le _ _) (Nat.div_le_self 1 (10 ^ k))

theorem witness_ConstructionSetsState :
    ([3, 0, 99] : List Cell)[1]? = some 0 ∧ decode [3, 0, 99] = .ok (.input (.position 0), 2) ∧
    fetchInstr (img [3, 0, 99]) = .ok (.input (.position 0)) := by decide

/-- A valid address at the top of memory, an invalid one just above it and one below 0, an image of
length 5. -/
theorem witness_WriteThenRead :
    (img [10, 20, 30]).mem.wf = true ∧ (img [10, 20, 30]).ValidAddress 2 ∧
    memRead (img [10, 20, 30]) 1 = .ok 20 ∧ (1 : Int) ≠ 2 ∧
    ¬ (img [10, 20, 30]).ValidAddress 3 ∧ ¬ (img [10, 20, 30]).ValidAddress (-1) ∧
    ([2, 3, 0, 3, 99] : List Cell).length = 5 := by decide

theorem witness_StreamYieldsRemainingCells :
    memStream (img [10, 20, 30]) 1 = .ok [20, 30] ∧ ([20, 30] : List Cell)[1]? = some 30 ∧
    ¬ (img [10, 20, 30]).ValidAddress 3 ∧ ¬ (img []).ValidAddress 0 := by decide

theorem witness_EqualReadsEqualMemory :
    ((Memory.ofImage [1, 2]).write 0 0).wf = true ∧ (Memory.ofImage [0, 2]).wf = true ∧
    ((Memory.ofImage [1, 2]).write 0 0).length = (Memory.ofImage [0, 2]).length ∧
    (∀ a < 2, ((Memory.ofImage [1, 2]).write 0 0).read a = (Memory.ofImage [0, 2]).read a) := by
  decide

theorem witness_FetchSeesEarlierWrite :
    (img [10, 20, 30]).mem.wf = true ∧ memWrite (img [10, 20, 30]) 2 7 = .ok (img [10, 20, 7]) ∧
    memStream (img [10, 20, 7]) 1 = .ok [20, 7] := by decide

theorem witness_LoadTextByTokens : ',' ∉ ['1', '2'] ∧ (12 : Cell) ∈ loadText defaultParams ['1', '2'] := by
  decide

theorem witness_StepRunsDecodedInstruction :
    (img [99]).halted = false ∧ memStream (img [99]) (img [99]).ip = .ok [99] ∧
    decode [99] = .ok (.halt, 1) := by decide

theorem witness_StepWhileHaltedExactly : ({ img [5] with halted := true } : State).halted = true := rfl

/-- At `ip = L` and at `L = 0`. -/
theorem witness_FetchBeyondMemoryRaises :
    ({ img [5] with ip := 1 } : State).mem.length ≤ 1 ∧ (img [5]).halted = false ∧
    (img []).mem.length ≤ (img []).ip := by decide

theorem witness_DecodeErrorEndsStep :
    (img [201]).halted = false ∧ memStream (img [201]) (img [201]).ip = .ok [201] ∧
    decode [201] = .error (.unknownParameterMode 201) := by decide

/-- A step that answers, and one that fails. -/
theorem witness_OkStepAdvances :
    step (img [104, 1, 99]) = .next { img [104, 1, 99] with ip := 2, cycle := 1, io := [.output 1] } ∧
    step (img [4, 9, 99]) = .fault (.memoryOperationOutOfBounds 9 (img [4, 9, 99])) := ⟨rfl, rfl⟩

/-- I4: the second case, a failing write of an `Input`; the first case is F7, and an `Input` that
obtained nothing. It is a witness of
`RetryRaisesSameError`, `HistoryOnlyGrows`, `InputConserved` and `FailingStepKeepsInv` too. -/
theorem witness_FailingStepLeavesState :
    step (img [3, 7, 99] [9]) =
      .fault (.memoryOperationOutOfBounds 7 { img [3, 7, 99] with io := [.userInput 9] }) ∧
    step (img [10001, 0, 0, 0, 99]) =
      .fault (.writeParameterCannotBeImmediateMode 0 (img [10001, 0, 0, 0, 99])) ∧
    step (img [3, 0, 99]) = .fault (.inputAcquisitionFailed (img [3, 0, 99])) := ⟨rfl, rfl, rfl⟩

/-- A state with the invariant whose step answers (`StepKeepsInv`). -/
theorem witness_StepKeepsInv :
    (img [3, 0, 99] [5]).Inv ∧
    step (img [3, 0, 99] [5]) = .next { img [5, 0, 99] with ip := 2, cycle := 1, io := [.userInput 5] } :=
  ⟨⟨by decide, by decide, by decide, by decide, by decide, by decide, by decide⟩, rfl⟩

/-- A state with the invariant whose step fails (`FailingStepKeepsInv`). -/
theorem witness_FailingStepKeepsInv :
    (img [3, 7, 99] [9]).Inv ∧ ∃ f, step (img [3, 7, 99] [9]) = .fault f :=
  ⟨⟨by decide, by decide, by decide, by decide, by decide, by decide, by decide⟩, _, rfl⟩

/-- The extreme Cells are legal (`ConstructionHasInv`). -/
theorem witness_ConstructionHasInv :
    imageLegal defaultParams [2147483647, -2147483648] = true ∧
    (∀ v ∈ ([2147483647] : List Cell), InCellRange defaultParams.cellWidth v) := by decide

theorem witness_HaltedOnlyByHalt :
    step (img [99]) = .next { img [99] with halted := true, cycle := 1 } ∧
    fetchInstr (img [99]) = .ok .halt := ⟨rfl, rfl⟩

/-- A step that answers, for the first case; the failing case is `witness_FailingStepLeavesState`. -/
theorem witness_HistoryOnlyGrows :
    step (img [3, 0, 99] [5, 6]) =
      .next { img [5, 0, 99] [6] with ip := 2, cycle := 1, io := [.userInput 5] } := rfl

theorem witness_InputConserved :
    inputValues [.userInput 5] ++ [6] = inputValues [] ++ [5, 6] := by decide

/-- Both clauses, from a state whose record and counter differ from reset. -/
theorem witness_RecordAndCycleNeverConsulted :
    step { img [104, 1] with io := [.output 8], cycle := 3 } =
      .next { img [104, 1] with io := [.output 8, .output 1], cycle := 4, ip := 2 } ∧
    step { img [0] with io := [.output 8], cycle := 3 } =
      .fault (.unknownOpcode 0 { img [0] with io := [.output 8], cycle := 3 }) := ⟨rfl, rfl⟩

theorem witness_OnlyInputConsultsSource :
    fetchInstr (img [104, 1] [5]) = .ok (.output (.immediate 1)) ∧
    (∀ d, Instr.output (.immediate 1) ≠ .input d) ∧
    step (img [104, 1] [5]) = .next { img [104, 1] [5] with io := [.output 1], cycle := 1, ip := 2 } :=
  ⟨rfl, fun _ => by simp, rfl⟩

theorem witness_AnswerConsumedExactly :
    (stepAnswering (.value 9) (img [103, 5, 99])).consumed = true ∧
    (stepAnswering .fail (img [3, 0, 99])).consumed = false ∧
    (stepAnswering (.value 9) (img [99])).consumed = false := by decide

/-- A retry after an error of each kind of the two cases. -/
theorem witness_RetryRaisesSameError :
    step (img [0]) = .fault (.unknownOpcode 0 (img [0])) ∧
    step { img [3, 7, 99] with io := [.userInput 9] } =
      .fault (.inputAcquisitionFailed { img [3, 7, 99] with io := [.userInput 9] }) := ⟨rfl, rfl⟩

theorem witness_HaltedRunEndsAtHalt :
    (img [104, 1, 99]).halted = false ∧
    run 2 (img [104, 1, 99]) =
      .halted { img [104, 1, 99] with ip := 2, cycle := 2, halted := true, io := [.output 1] } := by
  decide

/-- The six clauses of `Add`'s meaning, in order: the last valid destination, a source at `L`, a
negative second source, the least sum that overflows, an `Immediate` destination, a destination at
`L`. -/
theorem witness_AddMeaning :
    ((img [1, 0, 0, 4, 99]).sourceOk (.position 0) = true ∧
      aluFits defaultParams (1 + 1) = true ∧ (img [1, 0, 0, 4, 99]).ValidAddress 4) ∧
    (img [1, 0, 0, 4, 99]).sourceOk (.position 5) = false ∧
    (img [1, 0, 0, 4, 99]).sourceOk (.position (-1)) = false ∧
    aluFits defaultParams (2147483647 + 1) = false ∧
    (aluFits defaultParams (2147483646 + 1) = true ∧ (img []).sourceOk (.immediate 2147483646) = true) ∧
    ¬ (img [1, 0, 0, 4, 99]).ValidAddress 5 := by decide

/-- The six clauses of `Multiply`'s meaning, in order: the largest square in range, a source at `L`, a
negative second source, the least square that overflows, an `Immediate` destination, a negative
destination. -/
theorem witness_MultiplyMeaning :
    ((img [1102, 46340, 46340, 0, 99]).sourceOk (.immediate 46340) = true ∧
      aluFits defaultParams (46340 * 46340) = true ∧
      (img [1102, 46340, 46340, 0, 99]).ValidAddress 0) ∧
    (img [102, 0, 5, 0, 99]).sourceOk (.position 5) = false ∧
    (img [102, 0, 5, 0, 99]).sourceOk (.position (-1)) = false ∧
    aluFits defaultParams (46341 * 46341) = false ∧
    aluFits ⟨32, .wrap⟩ (46341 * 46341) = true ∧
    ¬ (img [102, 0, 5, 0, 99]).ValidAddress (-3) := by decide

/-- The four clauses of `Input`'s meaning. -/
theorem witness_InputMeaning :
    ((img [3, 2, 99] [5]).input = 5 :: [] ∧ (img [3, 2, 99] [5]).ValidAddress 2) ∧
    (img [3, 0, 99]).input = [] ∧ (img [103, 5, 99] [9]).input = 9 :: [] ∧
    ¬ (img [3, 3, 99] [9]).ValidAddress 3 := by decide

/-- The two conditional clauses of `Output`'s meaning. -/
theorem witness_OutputMeaning :
    (img [4, 2, 99]).sourceOk (.position 2) = true ∧ (img [4, 2, 99]).operand (.position 2) = 99 ∧
    (img [4, 3, 99]).sourceOk (.position 3) = false := by decide

theorem witness_HaltInLastCell :
    ({ img [0, 1199] with ip := 1 } : State).ip + 1 = ({ img [0, 1199] with ip := 1 } : State).mem.length ∧
    decodeHeader (({ img [0, 1199] with ip := 1 } : State).mem.read 1) =
      .ok (.halt, [.immediate, .immediate]) := by decide

/-- In and out of the Cell range, at both ends. -/
theorem witness_AluResultByPolicy :
    InCellRange 32 2147483647 ∧ ¬ InCellRange 32 2147483648 ∧
    InCellRange 32 (-2147483648) ∧ ¬ InCellRange 32 (-2147483649) ∧
    aluCell defaultParams 2147483648 = none ∧ aluCell defaultParams 7 = some 7 := by decide

/-- A fault on either side of the swap. -/
theorem witness_ArithmeticCommutes :
    exec (.add (.position 9) (.immediate 1) (.position 0)) (img [7]) =
      .fault (.memoryOperationOutOfBounds 9 (img [7])) ∧
    exec (.multiply (.immediate 1) (.position 9) (.position 0)) (img [7]) =
      .fault (.memoryOperationOutOfBounds 9 (img [7])) ∧
    exec (.add (.immediate 1) (.immediate 2) (.position 0)) (img [7]) =
      .next { img [3] with ip := 4, cycle := 1 } := ⟨rfl, rfl, rfl⟩

theorem witness_SourceIsDestination :
    (img [1, 5, 5, 5, 99, 21]).mem.wf = true ∧ (img [1, 5, 5, 5, 99, 21]).ValidAddress 5 ∧
    InCellRange 32 ((img [1, 5, 5, 5, 99, 21]).mem.read 5 + (img [1, 5, 5, 5, 99, 21]).mem.read 5) ∧
    InCellRange 32 ((img [1, 5, 5, 5, 99, 21]).mem.read 5 * (img [1, 5, 5, 5, 99, 21]).mem.read 5) := by
  decide

/-- Next states of `Add` and of `Multiply`. -/
theorem witness_ArithmeticFrame :
    exec (.add (.position 0) (.immediate 5) (.position 1)) (img [7, 0]) =
      .next { img [7, 12] with ip := 4, cycle := 1 } ∧
    exec (.multiply (.position 0) (.immediate 5) (.position 1)) (img [7, 0]) =
      .next { img [7, 35] with ip := 4, cycle := 1 } := ⟨rfl, rfl⟩

theorem witness_InputFrame :
    exec (.input (.position 1)) (img [7, 0] [3]) =
      .next { img [7, 3] with ip := 2, cycle := 1, io := [.userInput 3] } := rfl

theorem witness_OutputAndHaltFrame :
    exec (.output (.position 0)) (img [7, 0]) =
      .next { img [7, 0] with ip := 2, cycle := 1, io := [.output 7] } ∧
    exec .halt (img [7, 0]) = .next { img [7, 0] with halted := true, cycle := 1 } := ⟨rfl, rfl⟩

end Sys2Proof.Tests
end

/-!
PROOFS. The statements of spec/10_state.md. First what an executed instruction does to the state,
once for all of them (`Effect`, `exec_next`, `step_fault_left`); from it the invariant, the halted flag
and the history of a step; last that a step commutes with a change of the record and the counter.
-/

namespace Sys2Proof.Machine

/-! ## What a step can do -/

/-- The effect of an executed instruction on the state, before the advance: one constructor per
instruction, with the conditions under which the instruction answers (41_arithmetic R101, R102, 42_io
R109, R111, 43_halt R115). -/
inductive Effect (s : State) : Instr → State → Prop where
  | add {p1 p2 : Parameter} {a : Int} (h1 : s.sourceOk p1 = true) (h2 : s.sourceOk p2 = true)
      (hfit : aluFits s.params (s.operand p1 + s.operand p2) = true) (ha : s.ValidAddress a) :
      Effect s (.add p1 p2 (.position a))
        (s.setMem (s.mem.write a.toNat (aluValue s.params (s.operand p1 + s.operand p2))))
  | multiply {p1 p2 : Parameter} {a : Int} (h1 : s.sourceOk p1 = true) (h2 : s.sourceOk p2 = true)
      (hfit : aluFits s.params (s.operand p1 * s.operand p2) = true) (ha : s.ValidAddress a) :
      Effect s (.multiply p1 p2 (.position a))
        (s.setMem (s.mem.write a.toNat (aluValue s.params (s.operand p1 * s.operand p2))))
  | input {v : Cell} {rest : List Cell} {a : Int} (hq : s.input = v :: rest)
      (ha : s.ValidAddress a) :
      Effect s (.input (.position a))
        (((s.setInput rest).ioAppend (.userInput v)).setMem (s.mem.write a.toNat v))
  | output {p : Parameter} (hp : s.sourceOk p = true) :
      Effect s (.output p) (s.ioAppend (.output (s.operand p)))
  | halt : Effect s .halt s.setHalted

/-- An instruction that answers has its effect and then the advance of the dispatch table. -/
theorem exec_next {i : Instr} {s t : State} (h : exec i s = .next t) :
    ∃ u, Effect s i u ∧ t = u.advance (advanceOf i) := by
  cases i with
  | add p1 p2 pDest =>
    obtain ⟨u, hu, rfl⟩ := finish_next.1 h
    obtain ⟨h1, h2, hfit, a, rfl, ha, rfl⟩ := arithmetic_ok hu
    exact ⟨_, .add h1 h2 hfit ha, rfl⟩
  | multiply p1 p2 pDest =>
    obtain ⟨u, hu, rfl⟩ := finish_next.1 h
    obtain ⟨h1, h2, hfit, a, rfl, ha, rfl⟩ := arithmetic_ok hu
    exact ⟨_, .multiply h1 h2 hfit ha, rfl⟩
  | input pDest =>
    obtain ⟨u, hu, rfl⟩ := finish_next.1 h
    obtain ⟨v, rest, a, hq, rfl, ha, rfl⟩ := acquire_ok hu
    exact ⟨_, .input hq ha, rfl⟩
  | output pSrc =>
    obtain ⟨u, hu, rfl⟩ := finish_next.1 h
    obtain ⟨hp, rfl⟩ := emit_ok hu
    exact ⟨_, .output hp, rfl⟩
  | halt => exact ⟨_, .halt, exec_halt_next.1 h⟩

/-- A step that answers: the instruction fetched had its effect, and `ip` and `cycle` advanced. -/
theorem step_next_effect {s t : State} (h : step s = .next t) :
    ∃ i u, fetchInstr s = .ok i ∧ Effect s i u ∧ t = u.advance (advanceOf i) := by
  obtain ⟨i, hi, hx⟩ := step_next h
  obtain ⟨u, hu, ht⟩ := exec_next hx
  exact ⟨i, u, hi, hu, ht⟩

theorem arithmetic_error_left {f : Int → Int → Int} {p1 p2 pDest : Parameter} {s : State}
    {e : Fault} (h : arithmetic f p1 p2 pDest s = .error e) : e.left = s := by
  rcases arithmetic_error h with rfl | rfl | rfl | rfl | rfl <;> rfl

/-- The state a failing instruction leaves: as it was, or, after an `Input` that obtained a value, with
that value consumed and recorded (60_exceptions R133). -/
theorem exec_fault_left {i : Instr} {s : State} {f : Fault} (h : exec i s = .fault f) :
    f.left = s ∨ ∃ pDest v rest, i = .input pDest ∧ s.input = v :: rest ∧
      f.left = (s.setInput rest).ioAppend (.userInput v) := by
  cases i with
  | add p1 p2 pDest => exact .inl (arithmetic_error_left (finish_fault.1 h))
  | multiply p1 p2 pDest => exact .inl (arithmetic_error_left (finish_fault.1 h))
  | input pDest =>
    rcases acquire_error (finish_fault.1 h) with ⟨_, rfl⟩ | ⟨v, rest, hq, hf⟩
    · exact .inl rfl
    · exact .inr ⟨pDest, v, rest, rfl, hq, by rcases hf with rfl | rfl <;> rfl⟩
  | output pSrc =>
    obtain ⟨_, rfl⟩ := emit_error (finish_fault.1 h)
    exact .inl rfl
  | halt => exact absurd h exec_halt_not_fault

theorem step_fault_left {s : State} {f : Fault} (h : step s = .fault f) :
    f.left = s ∨ ∃ pDest v rest, fetchInstr s = .ok (.input pDest) ∧ s.input = v :: rest ∧
      f.left = (s.setInput rest).ioAppend (.userInput v) := by
  rcases step_cases s with ⟨i, hi, hs⟩ | ⟨g, hg, hs⟩
  · rw [hs] at h
    rcases exec_fault_left h with hf | ⟨pDest, v, rest, rfl, hq, hf⟩
    · exact .inl hf
    · exact .inr ⟨pDest, v, rest, hi, hq, hf⟩
  · obtain rfl : g = f := by simpa [hs] using h
    exact .inl (fetchInstr_error hg)

section Effect
variable {s u : State} {i : Instr}

theorem Effect.params_eq (h : Effect s i u) : u.params = s.params := by cases h <;> rfl

theorem Effect.ip_eq (h : Effect s i u) : u.ip = s.ip := by cases h <;> rfl

theorem Effect.cycle_eq (h : Effect s i u) : u.cycle = s.cycle := by cases h <;> rfl

theorem Effect.length_eq (h : Effect s i u) : u.mem.length = s.mem.length := by cases h <;> rfl

/-- Only `Halt` sets the flag (10_state R15). -/
theorem Effect.halted_iff (h : Effect s i u) : u.halted = true ↔ s.halted = true ∨ i = .halt := by
  cases h <;> simp

theorem Effect.io_grows (h : Effect s i u) : u.io = s.io ∨ ∃ e, u.io = s.io ++ [e] := by
  cases h with
  | add | multiply | halt => exact .inl rfl
  | input | output => exact .inr ⟨_, rfl⟩

end Effect

/-! ## Every integer the machine computes is a Cell -/

theorem zero_inCellRange (W : Nat) : InCellRange W 0 := by
  have h : (0 : Int) < 2 ^ (W - 1) := by positivity
  simp only [InCellRange, cellMin, cellMax]
  omega

theorem wrapCell_inCellRange {W : Nat} (hW : 1 ≤ W) (z : Int) : InCellRange W (wrapCell W z) := by
  have hpow : (2 ^ W : Int) = 2 * 2 ^ (W - 1) := by rw [← pow_succ', Nat.sub_add_cancel hW]
  have hpos : (0 : Int) < 2 ^ W := by positivity
  have hlo := Int.emod_nonneg (z + 2 ^ (W - 1)) hpos.ne'
  have hhi := Int.emod_lt_of_pos (z + 2 ^ (W - 1)) hpos
  simp only [wrapCell, InCellRange, cellMin, cellMax]
  constructor <;> linarith

theorem aluValue_inCellRange {p : Params} (hW : 1 ≤ p.cellWidth) (z : Int) :
    InCellRange p.cellWidth (aluValue p z) := by
  unfold aluValue
  split
  case isTrue h => exact h
  case isFalse => exact wrapCell_inCellRange hW z

@[simp] theorem wrapParameter_raw (ms : List Mode) (k : Nat) (r : Cell) :
    (wrapParameter ms k r).raw = r := by
  unfold wrapParameter
  split <;> rfl

theorem assembleInstr_wellFormed {W : Nat} {p : Nat → Parameter} (op : Opcode)
    (h : ∀ k, InCellRange W (p k).raw) : (assembleInstr op p).wellFormed W = true := by
  cases op <;>
    simp [assembleInstr, Instr.wellFormed, Instr.parameters, Parameter.wellFormed, h]

/-- Decoding a stream of Cells gives a well-formed instruction. -/
theorem decode_wellFormed {W : Nat} {cs : List Cell} {i : Instr} {n : Nat}
    (hcs : ∀ c ∈ cs, InCellRange W c) (h : decode cs = .ok (i, n)) : i.wellFormed W = true := by
  obtain ⟨w, rest, op, ms, rfl, _, _, _, rfl⟩ := decode_ok.1 h
  refine assembleInstr_wellFormed op fun k => ?_
  rw [wrapParameter_raw, List.getD_eq_getElem?_getD]
  cases hk : (rest.take op.paramCount)[k]? with
  | none => exact zero_inCellRange W
  | some r => exact hcs r (List.mem_cons_of_mem w (List.mem_of_mem_take (List.mem_of_getElem? hk)))

theorem Memory.mem_cellsFrom {m : Memory} {n a : Nat} {c : Cell} (h : c ∈ m.cellsFrom n a) :
    ∃ b, c = m.read b := by
  induction n generalizing a with
  | zero => simp [Memory.cellsFrom] at h
  | succ n ih =>
    rcases List.mem_cons.1 h with rfl | h
    · exact ⟨a, rfl⟩
    · exact ih h

/-- Memory holds all the cells of an instruction that is fetched. -/
theorem fetchInstr_fits {s : State} {i : Instr} (h : fetchInstr s = .ok i) :
    s.ip + i.length ≤ s.mem.length := by
  obtain ⟨_, hip, n, hd⟩ := fetchInstr_ok.1 h
  obtain ⟨rfl, hn⟩ := decode_length hd
  rw [Memory.cellsFrom_length] at hn
  omega

theorem advanceOf_le_length (i : Instr) : advanceOf i ≤ i.length := by
  cases i <;> simp [advanceOf, Instr.length, Instr.opcode, Opcode.paramCount]

/-! ## The invariant -/

namespace State.Inv
variable {s : State}

theorem one_le_width (hs : s.Inv) : 1 ≤ s.params.cellWidth := le_trans (by decide) hs.width

theorem read_inCellRange (hs : s.Inv) (a : Nat) :
    InCellRange s.params.cellWidth (s.mem.read a) := by
  rcases lookupCell_mem s.mem.cells a with h | h
  · rw [Memory.read, h]
    exact zero_inCellRange _
  · exact hs.memRange _ h

theorem fetchInstr_wellFormed (hs : s.Inv) {i : Instr} (h : fetchInstr s = .ok i) :
    i.wellFormed s.params.cellWidth = true := by
  obtain ⟨_, _, n, hd⟩ := fetchInstr_ok.1 h
  refine decode_wellFormed (fun c hc => ?_) hd
  obtain ⟨b, rfl⟩ := Memory.mem_cellsFrom hc
  exact hs.read_inCellRange b

theorem operand_inCellRange (hs : s.Inv) {p : Parameter}
    (hp : p.wellFormed s.params.cellWidth = true) :
    InCellRange s.params.cellWidth (s.operand p) := by
  cases p with
  | position a => exact hs.read_inCellRange a.toNat
  | immediate v => exact of_decide_eq_true hp

theorem setMem_write (hs : s.Inv) {a : Int} {v : Cell} (ha : s.ValidAddress a)
    (hv : InCellRange s.params.cellWidth v) : (s.setMem (s.mem.write a.toNat v)).Inv where
  width := hs.width
  lengthBound := hs.lengthBound
  memWf := Memory.wf_write hs.memWf (by omega) v
  ipBound := hs.ipBound
  memRange c hc := by
    rcases mem_storeCell hc with h | rfl
    · exact hs.memRange c h
    · exact hv
  ioRange := hs.ioRange
  inputRange := hs.inputRange

theorem ioAppend (hs : s.Inv) {e : RecordedIO} (he : InCellRange s.params.cellWidth e.value) :
    (s.ioAppend e).Inv where
  width := hs.width
  lengthBound := hs.lengthBound
  memWf := hs.memWf
  ipBound := hs.ipBound
  memRange := hs.memRange
  ioRange := by
    rw [State.ioAppend_io]
    exact List.forall_mem_append.2 ⟨hs.ioRange, by simpa using he⟩
  inputRange := hs.inputRange

theorem setInput (hs : s.Inv) {q : List Cell}
    (hq : ∀ v ∈ q, InCellRange s.params.cellWidth v) : (s.setInput q).Inv :=
  { hs with inputRange := hq }

theorem setHalted (hs : s.Inv) : s.setHalted.Inv := { hs with }

theorem advance (hs : s.Inv) {n : Nat} (h : s.ip + n ≤ s.mem.length) : (s.advance n).Inv :=
  { hs with ipBound := h }

/-- Consuming the source's front value and recording it keeps the invariant. -/
theorem recordInput (hs : s.Inv) {v : Cell} {rest : List Cell} (hq : s.input = v :: rest) :
    ((s.setInput rest).ioAppend (.userInput v)).Inv := by
  have hin := hs.inputRange
  rw [hq] at hin
  obtain ⟨hv, hrest⟩ := List.forall_mem_cons.1 hin
  exact (hs.setInput hrest).ioAppend hv

/-- A well-formed instruction's effect keeps the invariant. -/
theorem effect (hs : s.Inv) {i : Instr} {u : State}
    (hi : i.wellFormed s.params.cellWidth = true) (h : Effect s i u) : u.Inv := by
  cases h with
  | add _ _ _ ha => exact hs.setMem_write ha (aluValue_inCellRange hs.one_le_width _)
  | multiply _ _ _ ha => exact hs.setMem_write ha (aluValue_inCellRange hs.one_le_width _)
  | @input v rest a hq ha =>
    exact (hs.recordInput hq).setMem_write ha (hs.inputRange v (hq ▸ List.mem_cons_self))
  | @output p _ =>
    have hp : p.wellFormed s.params.cellWidth = true := by
      simpa [Instr.wellFormed, Instr.parameters] using hi
    exact hs.ioAppend (hs.operand_inCellRange hp)
  | halt => exact hs.setHalted

end State.Inv

/-- Settles O24: the instruction fetched is well formed and lies in memory, so its effect and its
advance keep the invariant. -/
theorem stepKeepsInv : Obligations.StepKeepsInv := by
  intro s t hs h
  obtain ⟨i, u, hi, hu, rfl⟩ := step_next_effect h
  have hfit : u.ip + advanceOf i ≤ u.mem.length := by
    rw [hu.ip_eq, hu.length_eq]
    exact le_trans (Nat.add_le_add_left (advanceOf_le_length i) s.ip) (fetchInstr_fits hi)
  exact (hs.effect (hs.fetchInstr_wellFormed hi) hu).advance hfit

/-- Settles O25: a failing step leaves the state as it was, or with one value moved from the source to
the record. -/
theorem failingStepKeepsInv : Obligations.FailingStepKeepsInv := by
  intro s f hs h
  rcases step_fault_left h with hf | ⟨_, v, rest, _, hq, hf⟩
  · exact hf ▸ hs
  · exact hf ▸ hs.recordInput hq

/-! ## The halted flag and the history -/

/-- Settles O28: a machine that fetches is Running, and `Halt` alone has the flag as its effect. -/
theorem haltedOnlyByHalt : Obligations.HaltedOnlyByHalt := by
  constructor
  · intro s t h
    obtain ⟨i, u, hi, hu, rfl⟩ := step_next_effect h
    obtain ⟨hrun, _⟩ := fetchInstr_ok.1 hi
    simp [hu.halted_iff, hrun, hi]
  · intro s f h
    rcases step_fault_left h with hf | ⟨_, _, _, _, _, hf⟩ <;> rw [hf]
    rfl

/-- Settles O29, by what an effect and a failing step leave of each component. -/
theorem historyOnlyGrows : Obligations.HistoryOnlyGrows := by
  rintro s t (h | ⟨f, h, rfl⟩)
  · obtain ⟨i, u, _, hu, rfl⟩ := step_next_effect h
    refine ⟨hu.length_eq, hu.params_eq, fun hh => hu.halted_iff.2 (.inl hh), ?_, hu.io_grows⟩
    rw [State.advance_cycle, hu.cycle_eq]
    exact Nat.le_succ _
  · rcases step_fault_left h with hf | ⟨_, v, _, _, _, hf⟩ <;> rw [hf]
    · exact ⟨rfl, rfl, id, le_rfl, .inl rfl⟩
    · exact ⟨rfl, rfl, id, le_rfl, .inr ⟨.userInput v, rfl⟩⟩

/-! ## The record and the counter are never consulted -/

/-- The state with another record in place of the first `n` entries of its own, and another count. -/
def State.rebase (n : Nat) (io : List RecordedIO) (c : Nat) (s : State) : State :=
  { s with io := io ++ s.io.drop n, cycle := c }

/-- The same error, with the state it leaves changed by `φ`. -/
def Fault.mapLeft (φ : State → State) : Fault → Fault
  | .unknownOpcode w s => .unknownOpcode w (φ s)
  | .instructionDecodeFailed ip s => .instructionDecodeFailed ip (φ s)
  | .memoryOperationOutOfBounds a s => .memoryOperationOutOfBounds a (φ s)
  | .unknownParameterMode w s => .unknownParameterMode w (φ s)
  | .writeParameterCannotBeImmediateMode x s => .writeParameterCannotBeImmediateMode x (φ s)
  | .inputAcquisitionFailed s => .inputAcquisitionFailed (φ s)
  | .arithmeticOverflow s => .arithmeticOverflow (φ s)
  | .stepWhileHalted s => .stepWhileHalted (φ s)

@[simp] theorem Fault.mapLeft_code (φ : State → State) (f : Fault) :
    (f.mapLeft φ).code = f.code := by cases f <;> rfl

@[simp] theorem Fault.mapLeft_info (φ : State → State) (f : Fault) :
    (f.mapLeft φ).info = f.info := by cases f <;> rfl

@[simp] theorem Fault.mapLeft_left (φ : State → State) (f : Fault) :
    (f.mapLeft φ).left = φ f.left := by cases f <;> rfl

/-- The result of an operation with its state, answered or left by an error, changed by `φ`. -/
def mapResult (φ : State → State) : Except Fault State → Except Fault State
  | .ok t => .ok (φ t)
  | .error f => .error (f.mapLeft φ)

/-- The outcome of a step with its record rebased, from the count `c` before the step. -/
def rebaseOutcome (n : Nat) (io : List RecordedIO) (c : Nat) :
    Host.Outcome State Fault Refusal → Host.Outcome State Fault Refusal
  | .next t => .next (t.rebase n io (c + 1))
  | .fault f => .fault (f.mapLeft (State.rebase n io c))
  | .refused r => .refused r

section Rebase
variable (n : Nat) (io : List RecordedIO) (c : Nat) (s : State)

@[simp] theorem State.rebase_params : (s.rebase n io c).params = s.params := rfl
@[simp] theorem State.rebase_ip : (s.rebase n io c).ip = s.ip := rfl
@[simp] theorem State.rebase_halted : (s.rebase n io c).halted = s.halted := rfl
@[simp] theorem State.rebase_mem : (s.rebase n io c).mem = s.mem := rfl
@[simp] theorem State.rebase_input : (s.rebase n io c).input = s.input := rfl

/-- Replacing the whole record. -/
theorem State.rebase_all : s.rebase s.io.length io c = { s with io := io, cycle := c } := by
  simp [State.rebase]

@[simp] theorem State.sourceOk_rebase (p : Parameter) :
    (s.rebase n io c).sourceOk p = s.sourceOk p := by cases p <;> rfl

@[simp] theorem State.operand_rebase (p : Parameter) :
    (s.rebase n io c).operand p = s.operand p := by cases p <;> rfl

theorem State.setInput_rebase (q : List Cell) :
    (s.rebase n io c).setInput q = (s.setInput q).rebase n io c := rfl

theorem State.ioAppend_rebase (e : RecordedIO) (h : n ≤ s.io.length) :
    (s.rebase n io c).ioAppend e = (s.ioAppend e).rebase n io c := by
  simp [State.rebase, State.ioAppend, List.drop_append_of_le_length h]

theorem writeThrough_rebase (p : Parameter) (v : Cell) :
    writeThrough (s.rebase n io c) p v = mapResult (State.rebase n io c) (writeThrough s p v) := by
  cases p with
  | immediate x => rfl
  | position a =>
    by_cases ha : s.ValidAddress a
    · have ha' : (s.rebase n io c).ValidAddress a := ha
      simp only [writeThrough, memWrite_valid ha, memWrite_valid ha']
      rfl
    · have ha' : ¬ (s.rebase n io c).ValidAddress a := ha
      simp only [writeThrough, memWrite_invalid ha, memWrite_invalid ha']
      rfl

theorem arithmetic_rebase (f : Int → Int → Int) (p1 p2 pDest : Parameter) :
    arithmetic f p1 p2 pDest (s.rebase n io c) =
      mapResult (State.rebase n io c) (arithmetic f p1 p2 pDest s) := by
  simp only [arithmetic_eq, State.sourceOk_rebase, State.operand_rebase, State.rebase_params,
    writeThrough_rebase]
  split_ifs <;> rfl

theorem acquire_rebase (pDest : Parameter) (h : n ≤ s.io.length) :
    acquire pDest (s.rebase n io c) = mapResult (State.rebase n io c) (acquire pDest s) := by
  cases hq : s.input with
  | nil => simp [acquire, inputFetch, hq, raise, mapResult, Fault.mapLeft]
  | cons v rest =>
    simp only [acquire, inputFetch, State.rebase_input, hq]
    rw [State.setInput_rebase, State.ioAppend_rebase n io c (s.setInput rest) _ h,
      writeThrough_rebase]

theorem emit_rebase (pSrc : Parameter) (h : n ≤ s.io.length) :
    emit pSrc (s.rebase n io c) = mapResult (State.rebase n io c) (emit pSrc s) := by
  simp only [emit, resolve_eq, State.sourceOk_rebase, State.operand_rebase]
  cases s.sourceOk pSrc with
  | true => simp [State.ioAppend_rebase, h, mapResult]
  | false => rfl

theorem finish_rebase (adv : Nat) (r : Except Fault State) :
    finish adv (mapResult (State.rebase n io c) r) = rebaseOutcome n io c (finish adv r) := by
  cases r <;> rfl

theorem exec_rebase (i : Instr) (h : n ≤ s.io.length) :
    exec i (s.rebase n io c) = rebaseOutcome n io c (exec i s) := by
  cases i with
  | add p1 p2 pDest =>
    exact (congrArg (finish 4) (arithmetic_rebase ..)).trans (finish_rebase ..)
  | multiply p1 p2 pDest =>
    exact (congrArg (finish 4) (arithmetic_rebase ..)).trans (finish_rebase ..)
  | input pDest => exact (congrArg (finish 2) (acquire_rebase _ _ _ _ _ h)).trans (finish_rebase ..)
  | output pSrc => exact (congrArg (finish 2) (emit_rebase _ _ _ _ _ h)).trans (finish_rebase ..)
  | halt => rfl

theorem memStream_rebase (a : Int) :
    memStream (s.rebase n io c) a =
      (memStream s a).mapError (Fault.mapLeft (State.rebase n io c)) := by
  by_cases ha : s.ValidAddress a
  · have ha' : (s.rebase n io c).ValidAddress a := ha
    rw [memStream_valid ha, memStream_valid ha']
    rfl
  · have ha' : ¬ (s.rebase n io c).ValidAddress a := ha
    rw [memStream_invalid ha, memStream_invalid ha']
    rfl

theorem decodeFault_rebase (e : DecodeError) :
    decodeFault e (s.rebase n io c) = (decodeFault e s).mapLeft (State.rebase n io c) := by
  cases e <;> rfl

theorem fetchInstr_rebase :
    fetchInstr (s.rebase n io c) =
      (fetchInstr s).mapError (Fault.mapLeft (State.rebase n io c)) := by
  unfold fetchInstr
  rw [State.rebase_halted, State.rebase_ip, memStream_rebase]
  cases s.halted with
  | true => rfl
  | false =>
    cases memStream s s.ip with
    | error f => rfl
    | ok cells =>
      cases hd : decode cells with
      | ok r => simp [Except.mapError, hd]
      | error e => simp [Except.mapError, hd, raise, decodeFault_rebase]

/-- A step from a state with another record and count is the same step, with that record and count in
its outcome. -/
theorem step_rebase (h : n ≤ s.io.length) :
    step (s.rebase n io c) = rebaseOutcome n io c (step s) := by
  unfold step
  rw [fetchInstr_rebase]
  cases fetchInstr s with
  | error f => rfl
  | ok i => exact exec_rebase n io c s i h

end Rebase

/-- Settles O31: a step commutes with replacing the record and the counter. -/
theorem recordAndCycleNeverConsulted : Obligations.RecordAndCycleNeverConsulted := by
  intro s io c
  have key := step_rebase s.io.length io c s le_rfl
  rw [State.rebase_all] at key
  constructor
  · intro t h
    rw [key, h]
    rfl
  · intro f h
    refine ⟨f.mapLeft (State.rebase s.io.length io c), ?_, f.mapLeft_code _, f.mapLeft_info _,
      f.mapLeft_left _⟩
    rw [key, h]
    rfl

end Sys2Proof.Machine

/-!
PROOFS. The statements of spec/20_memory.md about single accesses: what `MemRead`, `MemWrite` and
`MemStream` answer when they answer, and that the canonical form holds each memory once.
-/

namespace Sys2Proof.Machine

/-! ## Accesses that answer -/

theorem memRead_ok {s : State} {a : Int} {x : Cell} :
    memRead s a = .ok x ↔ s.ValidAddress a ∧ x = s.mem.read a.toNat := by
  by_cases h : s.ValidAddress a
  · rw [memRead_valid h, and_iff_right h, Except.ok.injEq, eq_comm]
  · simp [memRead_invalid h, h]

theorem memWrite_ok {s t : State} {a : Int} {v : Cell} :
    memWrite s a v = .ok t ↔ s.ValidAddress a ∧ t = s.setMem (s.mem.write a.toNat v) := by
  by_cases h : s.ValidAddress a
  · rw [memWrite_valid h, and_iff_right h, Except.ok.injEq, eq_comm]
  · simp [memWrite_invalid h, h]

theorem memStream_ok {s : State} {a : Int} {cs : List Cell} :
    memStream s a = .ok cs ↔
      s.ValidAddress a ∧ cs = s.mem.cellsFrom (s.mem.length - a.toNat) a.toNat := by
  by_cases h : s.ValidAddress a
  · rw [memStream_valid h, and_iff_right h, Except.ok.injEq, eq_comm]
  · simp [memStream_invalid h, h]

/-! ## A read after a write -/

theorem memRead_memWrite_same {s t : State} {a : Int} {v : Cell} (hwf : s.mem.wf = true)
    (h : memWrite s a v = .ok t) : memRead t a = .ok v := by
  obtain ⟨ha, rfl⟩ := memWrite_ok.1 h
  exact memRead_ok.2 ⟨ha, (Memory.read_write_same hwf a.toNat v).symm⟩

theorem memRead_memWrite_other {s t : State} {a b : Int} {v x : Cell}
    (h : memWrite s a v = .ok t) (hne : b ≠ a) (hx : memRead s b = .ok x) :
    memRead t b = .ok x := by
  obtain ⟨ha, rfl⟩ := memWrite_ok.1 h
  obtain ⟨hb, rfl⟩ := memRead_ok.1 hx
  have hne' : b.toNat ≠ a.toNat := by omega
  exact memRead_ok.2 ⟨hb, (Memory.read_write_other s.mem hne' v).symm⟩

/-- The valid addresses of a constructed machine are those of its image. -/
theorem construct_validAddress {p : Params} {P q : List Cell} {a : Int} :
    (construct p P q).ValidAddress a ↔ 0 ≤ a ∧ a < (P.length : Int) := Iff.rfl

/-- Settles O13: `memRead_memWrite_same` and `memRead_memWrite_other`; in the rule's example `L = 5`, so
3 is a valid address and 5 is not. -/
theorem writeThenRead : Obligations.WriteThenRead := by
  refine ⟨fun s a v hwf h0 hL => ?_, fun s a v h => memWrite_invalid h v, fun p P hP => ⟨?_, ?_⟩⟩
  · have hw := memWrite_valid (s := s) ⟨h0, hL⟩ v
    exact ⟨_, hw, memRead_memWrite_same hwf hw, fun b x => memRead_memWrite_other hw, rfl, rfl⟩
  · have h3 : (construct p P []).ValidAddress 3 := construct_validAddress.2 (by omega)
    have hw := memWrite_valid h3 6
    exact ⟨_, hw, memRead_memWrite_same (Memory.wf_ofImage P) hw⟩
  · have h5 : ¬ (construct p P []).ValidAddress 5 := by
      rw [construct_validAddress, hP]
      decide
    exact memWrite_invalid h5 0

/-! ## Streams -/

/-- Position `k` of a stream at `a` is the cell at `a + k`, as long as that lies below `L`. -/
theorem memStream_getElem? {s : State} {a k : Nat} {cs : List Cell}
    (h : memStream s a = .ok cs) (hk : a + k < s.mem.length) :
    cs[k]? = some (s.mem.read (a + k)) := by
  obtain ⟨-, rfl⟩ := memStream_ok.1 h
  exact s.mem.cellsFrom_getElem? a (by omega)

/-- Settles O14: a position of the stream lies below its length `L - a`, so the cell there is the one
that `MemRead` answers. -/
theorem streamYieldsRemainingCells : Obligations.StreamYieldsRemainingCells := by
  refine ⟨fun s a ha => ?_, fun s a h => memStream_invalid h⟩
  have hs := memStream_valid (s := s) (a := a) ⟨by omega, by omega⟩
  have hlen := s.mem.cellsFrom_length (s.mem.length - a) a
  refine ⟨_, hs, hlen, fun k c hc => ?_⟩
  have hk : a + k < s.mem.length := by
    have := (List.getElem?_eq_some_iff.1 hc).1
    rw [Int.toNat_natCast, hlen] at this
    omega
  rw [memStream_getElem? hs hk, Option.some.injEq] at hc
  exact memRead_ok.2 ⟨⟨by omega, by omega⟩, hc.symm⟩

/-- Settles O16: the stream's position `a - b` is the cell at `a`, which reads as the value written. -/
theorem fetchSeesEarlierWrite : Obligations.FetchSeesEarlierWrite := by
  intro s t a b v cs hwf hw hb hs
  obtain ⟨ha, hv⟩ := memRead_ok.1 (memRead_memWrite_same hwf hw)
  have hab : b + (a - b) = a := by omega
  rw [memStream_getElem? hs (by omega), hab, hv, Int.toNat_natCast]

/-! ## The canonical form -/

theorem canonicalCells_cons {hi lo k : Nat} {v : Cell} {rest : List (Nat × Cell)} :
    canonicalCells hi lo ((k, v) :: rest) = true ↔
      lo ≤ k ∧ k < hi ∧ v ≠ unlistedCell ∧ canonicalCells hi (k + 1) rest = true := by
  simp [canonicalCells, and_assoc]

/-- The first address of a canonical list is a lower bound of it. -/
theorem canonicalCells_head {hi lo k : Nat} {v : Cell} {rest : List (Nat × Cell)}
    (h : canonicalCells hi lo ((k, v) :: rest) = true) :
    canonicalCells hi k ((k, v) :: rest) = true :=
  canonicalCells_cons.2 ⟨le_rfl, (canonicalCells_cons.1 h).2⟩

/-- A canonical list that lists nothing below `l` cannot agree with one whose first address is below
`l`: that address reads as a listed cell in one and as an unlisted cell in the other. -/
theorem le_head_of_lookupCell_eq {hi lo l k : Nat} {u : Cell} {cs ds : List (Nat × Cell)}
    (hc : canonicalCells hi lo ((k, u) :: cs) = true) (hd : canonicalCells hi l ds = true)
    (heq : lookupCell ((k, u) :: cs) k = lookupCell ds k) : l ≤ k := by
  obtain ⟨-, -, hu, -⟩ := canonicalCells_cons.1 hc
  by_contra hlt
  rw [lookupCell_below hd (by omega), lookupCell, if_pos rfl] at heq
  exact hu heq

/-- Canonical lists below `hi` that hold the same cell at every address below `hi` are equal. -/
theorem canonicalCells_ext {hi lo lo' : Nat} {cs ds : List (Nat × Cell)}
    (hc : canonicalCells hi lo cs = true) (hd : canonicalCells hi lo' ds = true)
    (heq : ∀ a < hi, lookupCell cs a = lookupCell ds a) : cs = ds := by
  induction cs generalizing lo lo' ds with
  | nil =>
    cases ds with
    | nil => rfl
    | cons d ds =>
      obtain ⟨l, v⟩ := d
      obtain ⟨-, hl, -, -⟩ := canonicalCells_cons.1 hd
      have := le_head_of_lookupCell_eq (l := hi) hd rfl (heq l hl).symm
      omega
  | cons c cs ih =>
    obtain ⟨k, u⟩ := c
    obtain ⟨-, hk, -, hcs⟩ := canonicalCells_cons.1 hc
    cases ds with
    | nil =>
      have := le_head_of_lookupCell_eq (l := hi) hc rfl (heq k hk)
      omega
    | cons d ds =>
      obtain ⟨l, v⟩ := d
      obtain ⟨-, hl, -, hds⟩ := canonicalCells_cons.1 hd
      obtain rfl : k = l := le_antisymm
        (le_head_of_lookupCell_eq hd (canonicalCells_head hc) (heq l hl).symm)
        (le_head_of_lookupCell_eq hc (canonicalCells_head hd) (heq k hk))
      obtain rfl : u = v := by simpa [lookupCell] using heq k hk
      have htail : ∀ a < hi, lookupCell cs a = lookupCell ds a := by
        intro a ha
        by_cases hak : a = k
        · have hlt : a < k + 1 := by omega
          rw [lookupCell_below hcs hlt, lookupCell_below hds hlt]
        · simpa [lookupCell, Ne.symm hak] using heq a ha
      rw [ih hcs hds htail]

/-- Settles O15: equal reads give equal lists of pairs, by `canonicalCells_ext`. -/
theorem equalReadsEqualMemory : Obligations.EqualReadsEqualMemory := by
  rintro ⟨L, cs⟩ ⟨L', ds⟩ hm hn rfl heq
  exact congrArg (Memory.mk L) (canonicalCells_ext hm hn heq)

end Sys2Proof.Machine

/-!
PROOFS. The statements of spec/30_encoding.md. First `decode_all`: it answers exactly the decimal digits
of the mode string, read as modes (`decodeAll_iff_digits`); from it the header word, the parameters a
header's digits give, and last the encoder.
-/

namespace Sys2Proof

/-! ## Modes and their digits -/

/-- A mode is decoded from its own digit only (R62). -/
theorem Mode.ofDigit_eq_some {d : Nat} {m : Mode} : Mode.ofDigit d = some m ↔ d = m.digit := by
  constructor
  · rcases d with _ | _ | d
    · rintro ⟨⟩
      rfl
    · rintro ⟨⟩
      rfl
    · intro h
      cases h
  · rintro rfl
    exact Mode.ofDigit_digit m

theorem Mode.digit_injective : Function.Injective Mode.digit := fun m m' h =>
  Option.some.inj (by rw [← ofDigit_digit m, ← ofDigit_digit m', h])

theorem Mode.digit_le_one (m : Mode) : m.digit ≤ 1 := by cases m <;> decide

/-- `decode_all` reads the decimal digits of the mode string as modes, one mode for each (R61). -/
theorem decodeAll_iff_digits {M : Nat} {ms : List Mode} :
    decodeAll M = some ms ↔ Nat.digits 10 M = ms.map Mode.digit := by
  induction ms generalizing M with
  | nil =>
    simp only [List.map_nil, Nat.digits_eq_nil_iff_eq_zero]
    refine ⟨fun h => ?_, fun h => by rw [h, decodeAll_zero]⟩
    by_contra hM
    rw [decodeAll_step hM] at h
    split at h
    · cases h
    · split at h <;> cases h
  | cons m ms ih =>
    by_cases hM : M = 0
    · simp [hM]
    rw [Nat.digits_eq_cons_digits_div (by decide) hM, List.map_cons, List.cons.injEq, ← ih,
      ← Mode.ofDigit_eq_some]
    refine ⟨fun h => (decodeAll_cons h).2, fun ⟨hm, hms⟩ => ?_⟩
    rw [decodeAll_step hM, hm, hms]

/-- The mode of parameter `k` stands in digit `k`; beyond the digits both are those of `Position`. -/
theorem decodeAll_getD_digit {M : Nat} {ms : List Mode} (h : decodeAll M = some ms) (k : Nat) :
    (ms.getD k .position).digit = M / 10 ^ k % 10 := by
  rw [← Nat.getD_digits M k (by decide), decodeAll_iff_digits.1 h]
  exact (List.getD_map _ Mode.position Mode.digit).symm

/-- `decode_all` fails exactly when some digit is neither 0 nor 1 (R61, R62). -/
theorem decodeAll_eq_none {M : Nat} : decodeAll M = none ↔ ∃ k, 2 ≤ M / 10 ^ k % 10 := by
  constructor
  · induction M using Nat.strong_induction_on with
    | _ M ih =>
      intro h
      by_cases hM : M = 0
      · simp [hM] at h
      cases hd : Mode.ofDigit (M % 10) with
      | none => exact ⟨0, by simpa using Mode.ofDigit_eq_none.1 hd⟩
      | some m =>
        cases hr : decodeAll (M / 10) with
        | none =>
          obtain ⟨k, hk⟩ := ih (M / 10) (by omega) hr
          exact ⟨k + 1, by rwa [Nat.pow_succ', ← Nat.div_div_eq_div_mul]⟩
        | some ms => simp [decodeAll_step hM, hd, hr] at h
  · rintro ⟨k, hk⟩
    refine Option.eq_none_iff_forall_ne_some.2 fun ms h => ?_
    rw [← decodeAll_getD_digit h k] at hk
    exact absurd (Mode.digit_le_one _) (not_le.2 hk)

/-- `decode_all` answers exactly when every digit is 0 or 1. -/
theorem exists_decodeAll_iff {M : Nat} :
    (∃ ms, decodeAll M = some ms) ↔ ∀ k, M / 10 ^ k % 10 ≤ 1 := by
  rw [← Option.ne_none_iff_exists', ne_eq, decodeAll_eq_none, not_exists]
  simp only [not_le, Nat.lt_succ_iff]

/-- Two mode strings with the same digit `k` have the same mode `k`. -/
theorem getD_eq_of_digit_eq {M M' k : Nat} {ms ms' : List Mode} (h : decodeAll M = some ms)
    (h' : decodeAll M' = some ms') (hk : M / 10 ^ k % 10 = M' / 10 ^ k % 10) :
    ms.getD k .position = ms'.getD k .position :=
  Mode.digit_injective (by rw [decodeAll_getD_digit h, decodeAll_getD_digit h', hk])

/-- Settles O8: `decodeAll_iff_digits`, with the library's bounds on the number of digits, and
`decodeAll_eq_none`. -/
theorem modeDigitsDecoded : Obligations.ModeDigitsDecoded := by
  refine ⟨fun M ms h => ?_, fun M => ?_, by decide, by decide, by decide, by decide⟩
  · have hdigits := decodeAll_iff_digits.1 h
    have hlen : (Nat.digits 10 M).length = ms.length := by rw [hdigits, List.length_map]
    refine ⟨?_, fun hM => ?_, ?_, fun k hk => ?_⟩
    · rw [← hlen]
      exact Nat.lt_base_pow_length_digits (by decide)
    · have hpos := List.length_pos_iff.2 (Nat.digits_ne_nil_iff_ne_zero (b := 10).2 hM)
      rw [← hlen]
      exact (Nat.lt_digits_length_iff (by decide) M).1 (Nat.sub_one_lt_of_lt hpos)
    · rintro rfl
      simpa using h.symm
    · rw [← decodeAll_getD_digit h, Mode.ofDigit_digit, List.getD_eq_getElem _ _ hk,
        List.getElem?_eq_getElem hk]
  · simp only [decodeAll_eq_none, Mode.ofDigit_eq_none]

/-! ## The header word -/

theorem decodeHeader_negative {w : Cell} (h : w < 0) :
    decodeHeader w = .error (.unknownOpcode w) := if_pos h

/-- An opcode with a digit that is no mode (R59, R62). -/
theorem decodeHeader_unknownMode {w : Cell} {op : Opcode} (h0 : 0 ≤ w)
    (hop : Opcode.ofNumber (w.toNat % 100) = some op) (hM : decodeAll (w.toNat / 100) = none) :
    decodeHeader w = .error (.unknownParameterMode w) := by
  rw [decodeHeader, if_neg (not_lt.2 h0), hop, hM]

theorem decode_of_header_error {w : Cell} {e : DecodeError} (h : decodeHeader w = .error e)
    (rest : List Cell) : decode (w :: rest) = .error e := by
  rw [decode, h]

/-- Settles O3: the sign is tested first. -/
theorem negativeHeaderRaisesUnknownOpcode : Obligations.NegativeHeaderRaisesUnknownOpcode :=
  fun _ rest hw => ⟨decodeHeader_negative hw, decode_of_header_error (decodeHeader_negative hw) rest⟩

/-- Settles O7: `decodeHeader_ok`, each part by its own condition. -/
theorem legalHeaderWordsExactly : Obligations.LegalHeaderWordsExactly := by
  intro w
  rw [← Opcode.ofNumber_isSome, ← exists_decodeAll_iff, Option.isSome_iff_exists]
  constructor
  · rintro ⟨⟨op, ms⟩, h⟩
    obtain ⟨h0, hop, hms⟩ := decodeHeader_ok.1 h
    exact ⟨h0, ⟨op, hop⟩, ⟨ms, hms⟩⟩
  · rintro ⟨h0, ⟨op, hop⟩, ⟨ms, hms⟩⟩
    exact ⟨(op, ms), decodeHeader_ok.2 ⟨h0, hop, hms⟩⟩

/-! ## Parameters -/

theorem Instr.parameters_length (i : Instr) : i.parameters.length = i.opcode.paramCount := by
  cases i <;> rfl

/-- A parameter is wrapped by the digit that stands for it (R63, R66). -/
theorem wrapParameter_digit {M : Nat} {ms : List Mode} (h : decodeAll M = some ms) (k : Nat)
    (r : Cell) :
    wrapParameter ms k r = if M / 10 ^ k % 10 = 1 then .immediate r else .position r := by
  rw [← decodeAll_getD_digit h, wrapParameter]
  cases ms.getD k .position <;> rfl

/-- Wrapping a parameter's raw word by its own mode gives the parameter back. -/
theorem wrapParameter_mode_raw {ms : List Mode} {k : Nat} {p : Parameter}
    (h : ms.getD k .position = p.mode) : wrapParameter ms k p.raw = p := by
  rw [wrapParameter, h]
  cases p <;> rfl

theorem assembleInstr_parameters_getElem? {op : Opcode} {k : Nat} (hk : k < op.paramCount)
    (p : Nat → Parameter) : (assembleInstr op p).parameters[k]? = some (p k) := by
  have hparams : (assembleInstr op p).parameters = (List.range op.paramCount).map p := by
    cases op <;> rfl
  simp [hparams, hk]

/-- Assembling looks at the parameters of the opcode only. -/
theorem assembleInstr_congr {op : Opcode} {p q : Nat → Parameter}
    (h : ∀ k < op.paramCount, p k = q k) : assembleInstr op p = assembleInstr op q := by
  cases op <;> simp only [Opcode.paramCount] at h <;> simp [assembleInstr, h]

/-- Assembling an instruction's own parameters gives it back. -/
theorem assembleInstr_getD_parameters (i : Instr) (d : Parameter) :
    assembleInstr i.opcode (fun k => i.parameters.getD k d) = i := by cases i <;> rfl

/-- Parameter `k` of a decoded instruction: raw word `k`, wrapped by digit `k` (R66). -/
theorem decode_parameter {w : Cell} {rest : List Cell} {i : Instr} {n k : Nat}
    (h : decode (w :: rest) = .ok (i, n)) (hk : k < i.opcode.paramCount) :
    ∃ r, rest[k]? = some r ∧ i.parameters[k]? =
      some (if w.toNat / 100 / 10 ^ k % 10 = 1 then .immediate r else .position r) := by
  obtain ⟨_, _, op, ms, ⟨⟩, hheader, hlen, rfl, rfl⟩ := decode_ok.1 h
  obtain ⟨-, -, hms⟩ := decodeHeader_ok.1 hheader
  rw [assembleInstr_opcode] at hk
  refine ⟨_, List.getElem?_eq_getElem (hk.trans_le hlen), ?_⟩
  rw [assembleInstr_parameters_getElem? hk, wrapParameter_digit hms]
  simp [hk, hk.trans_le hlen]

/-- Settles O9: `decode_ok` for the opcode and the lengths, `decode_parameter` for the parameters. -/
theorem parametersFollowModeDigits : Obligations.ParametersFollowModeDigits := by
  intro w rest i n h
  rw [i.parameters_length]
  obtain ⟨_, _, op, ms, ⟨⟩, hheader, hlen, hn, hi⟩ := decode_ok.1 h
  obtain rfl : i.opcode = op := by rw [hi, assembleInstr_opcode]
  exact ⟨(decodeHeader_ok.1 hheader).2.1.symm, hn, hlen, fun k => decode_parameter h⟩

/-! ## Missing and extra mode digits -/

/-- The decoder depends on a header that decodes through the opcode and the modes of its parameters. -/
theorem decode_congr {w w' : Cell} {op : Opcode} {ms ms' : List Mode}
    (h : decodeHeader w = .ok (op, ms)) (h' : decodeHeader w' = .ok (op, ms'))
    (hmodes : ∀ k < op.paramCount, ms.getD k .position = ms'.getD k .position) (rest : List Cell) :
    decode (w :: rest) = decode (w' :: rest) := by
  simp only [decode, h, h']
  cases pullWords op.paramCount rest with
  | none => rfl
  | some raws =>
    have hwrap : ∀ k < op.paramCount,
        wrapParameter ms k (raws.getD k 0) = wrapParameter ms' k (raws.getD k 0) := by
      intro k hk
      rw [wrapParameter, wrapParameter, hmodes k hk]
    simp only [assembleInstr_congr hwrap]

/-- Digits added above the `n` low ones: the low digits stay, the others are the added ones. -/
theorem digit_add_high {M e n k : Nat} (hM : M < 10 ^ n) :
    (M + e * 10 ^ n) / 10 ^ k % 10 =
      if k < n then M / 10 ^ k % 10 else e / 10 ^ (k - n) % 10 := by
  split
  case isTrue hk =>
    obtain ⟨j, rfl⟩ : ∃ j, n = k + 1 + j := ⟨n - (k + 1), by omega⟩
    have hsplit : e * 10 ^ (k + 1 + j) = 10 ^ k * (10 * (e * 10 ^ j)) := by ring
    rw [hsplit, Nat.add_mul_div_left _ _ (by positivity), Nat.add_mul_mod_self_left]
  case isFalse hk =>
    obtain ⟨j, rfl⟩ : ∃ j, k = n + j := ⟨k - n, by omega⟩
    rw [Nat.pow_add, ← Nat.div_div_eq_div_mul, Nat.add_mul_div_right _ _ (by positivity),
      Nat.div_eq_of_lt hM, Nat.zero_add, Nat.add_sub_cancel_left]

/-- A parameter beyond the digits is `Position`. -/
theorem mode_of_missing_digit {w : Cell} {rest : List Cell} {i : Instr} {n k : Nat} {p : Parameter}
    (h : decode (w :: rest) = .ok (i, n)) (hp : i.parameters[k]? = some p)
    (hk : w.toNat / 100 < 10 ^ k) : p.mode = .position := by
  have hlt := (List.getElem?_eq_some_iff.1 hp).1
  rw [i.parameters_length] at hlt
  obtain ⟨r, -, hr⟩ := decode_parameter h hlt
  rw [Nat.div_eq_of_lt hk, hp, Option.some.injEq] at hr
  rw [hr]
  rfl

/-- Digits of 0 and 1 above the parameters' own change nothing. -/
theorem decode_extraDigits {w : Cell} {op : Opcode} {ms : List Mode} {e : Nat}
    (h : decodeHeader w = .ok (op, ms)) (hw : w.toNat < 10 ^ (2 + op.paramCount))
    (he : ∀ k, e / 10 ^ k % 10 ≤ 1) (rest : List Cell) :
    decode ((w + (e * 10 ^ (2 + op.paramCount) : Nat)) :: rest) = decode (w :: rest) := by
  obtain ⟨h0, hop, hms⟩ := decodeHeader_ok.1 h
  have hpow : e * 10 ^ (2 + op.paramCount) = 100 * (e * 10 ^ op.paramCount) := by ring
  have hnat : (w + (e * 10 ^ (2 + op.paramCount) : Nat)).toNat =
      w.toNat + 100 * (e * 10 ^ op.paramCount) := by
    rw [Int.toNat_add h0 (Int.natCast_nonneg _), Int.toNat_natCast, hpow]
  have hM : w.toNat / 100 < 10 ^ op.paramCount := by
    rw [Nat.pow_add] at hw
    omega
  have hdigit := fun k => digit_add_high (e := e) (k := k) hM
  obtain ⟨ms', hms'⟩ : ∃ ms', decodeAll (w.toNat / 100 + e * 10 ^ op.paramCount) = some ms' := by
    refine exists_decodeAll_iff.2 fun k => ?_
    rw [hdigit]
    split
    · exact exists_decodeAll_iff.1 ⟨ms, hms⟩ k
    · exact he _
  have hheader : decodeHeader (w + (e * 10 ^ (2 + op.paramCount) : Nat)) = .ok (op, ms') := by
    refine decodeHeader_ok.2 ⟨Int.add_nonneg h0 (Int.natCast_nonneg _), ?_, ?_⟩
    · rw [hnat, Nat.add_mul_mod_self_left, hop]
    · rw [hnat, Nat.add_mul_div_left _ _ (by decide), hms']
  refine decode_congr hheader h (fun k hk => getD_eq_of_digit_eq hms' hms ?_) rest
  rw [hdigit, if_pos hk]

/-- Settles O10: `mode_of_missing_digit`, `decodeHeader_unknownMode` and `decode_extraDigits`. -/
theorem fewerOrMoreModeDigits : Obligations.FewerOrMoreModeDigits := by
  refine ⟨fun w rest i n k p => mode_of_missing_digit, fun w op k h0 hop _ hk => ?_,
    fun w op ms e rest h hw he => decode_extraDigits h hw he rest,
    by decide, by decide, by decide, by decide, by decide⟩
  exact decodeHeader_unknownMode h0 hop (decodeAll_eq_none.2 ⟨k, hk⟩)

/-! ## The encoder -/

/-- Digit `k` of a mode string is the digit of mode `k` (R57). -/
theorem modeString_digit (ms : List Mode) (k : Nat) :
    modeString ms / 10 ^ k % 10 = (ms.getD k .position).digit := by
  induction ms generalizing k with
  | nil => simp [modeString, Mode.digit]
  | cons m ms ih =>
    have hm := m.digit_le_one
    cases k with
    | zero =>
      simp only [modeString, List.getD_cons_zero]
      omega
    | succ k =>
      have hdiv : (m.digit + 10 * modeString ms) / 10 = modeString ms := by omega
      rw [List.getD_cons_succ, ← ih, modeString, Nat.pow_succ', ← Nat.div_div_eq_div_mul, hdiv]

/-- `decode_all` of a mode string gives its modes back, but for trailing `Position`s, which it drops. -/
theorem decodeAll_modeString (ms : List Mode) :
    ∃ ms', decodeAll (modeString ms) = some ms' ∧
      ∀ k, ms'.getD k .position = ms.getD k .position := by
  obtain ⟨ms', h⟩ : ∃ ms', decodeAll (modeString ms) = some ms' :=
    exists_decodeAll_iff.2 fun k => by rw [modeString_digit]; exact Mode.digit_le_one _
  exact ⟨ms', h, fun k =>
    Mode.digit_injective (by rw [decodeAll_getD_digit h, modeString_digit])⟩

/-- The canonical header decodes to the opcode and the modes of the instruction. -/
theorem decodeHeader_headerWord (i : Instr) :
    ∃ ms, decodeHeader (i.headerWord : Cell) = .ok (i.opcode, ms) ∧
      ∀ k, ms.getD k .position = (i.parameters.map Parameter.mode).getD k .position := by
  obtain ⟨ms, hms, hmodes⟩ := decodeAll_modeString (i.parameters.map Parameter.mode)
  have hnumber : i.opcode.number < 100 := by cases i <;> simp [Instr.opcode, Opcode.number]
  refine ⟨ms, decodeHeader_ok.2 ⟨Int.natCast_nonneg _, ?_, ?_⟩, hmodes⟩
  · rw [Int.toNat_natCast, Instr.headerWord, Nat.add_mul_mod_self_left, Nat.mod_eq_of_lt hnumber,
      Opcode.ofNumber_number]
  · rw [Int.toNat_natCast, Instr.headerWord, Nat.add_mul_div_left _ _ (by decide),
      Nat.div_eq_of_lt hnumber, Nat.zero_add, hms]

/-- Settles O1: the header gives back the opcode and the modes, and each raw word wrapped by its mode is
the parameter it was taken from. -/
theorem decodeInvertsEncode : Obligations.DecodeInvertsEncode := by
  intro i rest
  obtain ⟨ms, hheader, hmodes⟩ := decodeHeader_headerWord i
  have hlen : i.opcode.paramCount = (i.parameters.map Parameter.raw).length := by
    rw [List.length_map, i.parameters_length]
  have htake : (i.parameters.map Parameter.raw ++ rest).take i.opcode.paramCount =
      i.parameters.map Parameter.raw := by rw [hlen, List.take_left]
  refine decode_ok.2
    ⟨i.headerWord, i.parameters.map Parameter.raw ++ rest, i.opcode, ms, rfl, hheader, by simp [hlen],
      rfl, ?_⟩
  rw [htake]
  have hraw : ∀ k, (i.parameters.map Parameter.raw).getD k 0 =
      (i.parameters.getD k (.position 0)).raw := fun k =>
    List.getD_map _ (Parameter.position 0) Parameter.raw
  have hmode : ∀ k, ms.getD k .position = (i.parameters.getD k (.position 0)).mode := fun k =>
    (hmodes k).trans (List.getD_map _ (Parameter.position 0) Parameter.mode)
  simp only [hraw, wrapParameter_mode_raw (hmode _), assembleInstr_getD_parameters]

end Sys2Proof

/-!
PROOFS. The statements of spec/40_step_dispatch.md. First how each phase before execution ends the step
(guard, fetch, decode); then the advance of an executed instruction, when the source's front value is
used up, and the bound on a run.
-/

namespace Sys2Proof.Machine

/-! ## Fetch and decode -/

theorem fetchInstr_of_decode {s : State} {cells : List Cell} {i : Instr} {n : Nat}
    (hrun : s.halted = false) (hs : memStream s s.ip = .ok cells)
    (hd : decode cells = .ok (i, n)) : fetchInstr s = .ok i := by
  simp [fetchInstr, hrun, hs, hd]

theorem fetchInstr_of_decode_error {s : State} {cells : List Cell} {e : DecodeError}
    (hrun : s.halted = false) (hs : memStream s s.ip = .ok cells)
    (hd : decode cells = .error e) : fetchInstr s = .error (decodeFault e s) := by
  simp [fetchInstr, hrun, hs, hd, raise]

theorem fetchInstr_of_stream_error {s : State} {f : Fault} (hrun : s.halted = false)
    (hs : memStream s s.ip = .error f) : fetchInstr s = .error f := by
  simp [fetchInstr, hrun, hs]

theorem step_of_fetch_error {s : State} {f : Fault} (h : fetchInstr s = .error f) :
    step s = .fault f := by
  simp [step, h]

@[simp] theorem decodeFault_left (e : DecodeError) (s : State) : (decodeFault e s).left = s := by
  cases e <;> rfl

/-- Settles O18: the stream that decodes is what `fetchInstr` reads. -/
theorem stepRunsDecodedInstruction : Obligations.StepRunsDecodedInstruction :=
  fun _ _ _ _ hrun hs hd => step_of_fetch (fetchInstr_of_decode hrun hs hd)

/-- Settles O20: at `ip >= L` there is no stream to decode. -/
theorem fetchBeyondMemoryRaises : Obligations.FetchBeyondMemoryRaises := by
  intro s hrun hip
  have hinvalid : ¬ s.ValidAddress s.ip := fun h => by have := h.2; omega
  exact step_of_fetch_error (fetchInstr_of_stream_error hrun (memStream_invalid hinvalid))

/-- Settles O21: the fetch ends with the decoder's error, which carries the state as it was. -/
theorem decodeErrorEndsStep : Obligations.DecodeErrorEndsStep :=
  fun s _ e hrun hs hd =>
    ⟨step_of_fetch_error (fetchInstr_of_decode_error hrun hs hd), decodeFault_left e s⟩

/-! ## No refusal -/

theorem step_not_refused (s : State) (r : Refusal) : step s ≠ .refused r := by
  rcases step_cases s with ⟨i, _, hs⟩ | ⟨f, _, hs⟩
  · exact hs ▸ exec_not_refused i s r
  · simp [hs]

/-- Settles O35: every meaning is a `finish`, which answers or raises an error. -/
theorem noInstructionRefused : Obligations.NoInstructionRefused :=
  ⟨exec_not_refused, step_not_refused⟩

/-! ## The advance -/

/-- Settles O22: an effect leaves `ip` and `cycle` to the advance that follows it, and a failing step
has none. -/
theorem okStepAdvances : Obligations.OkStepAdvances := by
  refine ⟨fun s t h => ?_, fun s f h => ?_, fun _ _ _ => ⟨rfl, rfl, rfl, rfl, rfl⟩⟩
  · obtain ⟨i, u, hi, hu, rfl⟩ := step_next_effect h
    exact ⟨i, hi, by rw [State.advance_ip, hu.ip_eq], by rw [State.advance_cycle, hu.cycle_eq]⟩
  · rcases step_fault_left h with hf | ⟨_, _, _, _, _, hf⟩ <;> simp [hf]

/-! ## The answer of the input source -/

/-- `Input` uses up the source's front value, whether or not the write then succeeds (42_io R109). -/
theorem stateAfter_exec_input (pDest : Parameter) (s : State) :
    (stateAfter s (exec (.input pDest) s)).input = s.input.tail := by
  cases hx : exec (.input pDest) s with
  | next t =>
    obtain ⟨u, hu, rfl⟩ := exec_next hx
    cases hu with
    | input hq => simp [stateAfter, hq]
  | fault f =>
    rcases acquire_error (finish_fault.1 hx) with ⟨hq, rfl⟩ | ⟨v, rest, hq, rfl | rfl⟩ <;>
      simp [stateAfter, Fault.left, hq]
  | refused r => exact absurd hx (exec_not_refused _ s r)

/-- No instruction but `Input` touches the source (42_io R107). -/
theorem stateAfter_exec_source {i : Instr} (hi : ∀ d, i ≠ .input d) (s : State) :
    (stateAfter s (exec i s)).input = s.input := by
  cases hx : exec i s with
  | next t =>
    obtain ⟨u, hu, rfl⟩ := exec_next hx
    cases hu with
    | add | multiply | output | halt => rfl
    | input => exact absurd rfl (hi _)
  | fault f =>
    rcases exec_fault_left hx with hf | ⟨d, _, _, rfl, _⟩
    · rw [stateAfter, hf]
    · exact absurd rfl (hi d)
  | refused r => rfl

/-- A step changes the source exactly when it executes `Input` and the source has a value. -/
theorem stateAfter_step_input_ne (s : State) :
    (stateAfter s (step s)).input ≠ s.input ↔
      s.input ≠ [] ∧ ∃ d, fetchInstr s = .ok (.input d) := by
  rcases step_cases s with ⟨i, hi, hs⟩ | ⟨f, hf, hs⟩
  · by_cases hin : ∃ d, i = .input d
    · obtain ⟨d, rfl⟩ := hin
      rw [hs, stateAfter_exec_input]
      cases s.input <;> simp [hi]
    · have hne : ∀ d, i ≠ .input d := not_exists.1 hin
      rw [hs, stateAfter_exec_source hne]
      simp [hi, hne]
  · simp [hs, hf, stateAfter, fetchInstr_error hf]

/-- What is fetched does not depend on the source. -/
theorem fetchInstr_setInput_ok {s : State} {q : List Cell} {i : Instr} :
    fetchInstr (s.setInput q) = .ok i ↔ fetchInstr s = .ok i := by
  simp [fetchInstr_ok]

theorem sourceOf_ne_nil {ans : Answer} : sourceOf ans ≠ [] ↔ ∃ v, ans = .value v := by
  cases ans <;> simp [sourceOf]

/-- Settles O33, by when a step changes the source that holds the one answer. -/
theorem answerConsumedExactly : Obligations.AnswerConsumedExactly := by
  intro s ans
  have key := stateAfter_step_input_ne (s.setInput (sourceOf ans))
  simp only [State.setInput_input, sourceOf_ne_nil, fetchInstr_setInput_ok] at key
  exact decide_eq_true_iff.trans key

/-! ## The bound on a run -/

theorem run_of_halted {s : State} (h : s.halted = true) (n : Nat) : run n s = .halted s := by
  cases n <;> simp [run, h]

theorem run_succ_of_next {s t : State} (hrun : s.halted = false) (h : step s = .next t) (n : Nat) :
    run (n + 1) s = run n t := by
  simp [run, hrun, h]

theorem run_succ_of_fault {s : State} {f : Fault} (hrun : s.halted = false)
    (h : step s = .fault f) (n : Nat) : run (n + 1) s = .faulted f := by
  simp [run, hrun, h]

theorem two_le_advanceOf {i : Instr} (h : i ≠ .halt) : 2 ≤ advanceOf i := by
  cases i with
  | halt => exact absurd rfl h
  | _ => simp [advanceOf]

/-- A step that answers halts the machine, or moves `ip` on by at least 2 within memory
(40_step_dispatch R93). -/
theorem step_next_progress {s t : State} (h : step s = .next t) :
    t.mem.length = s.mem.length ∧
      (t.halted = true ∨ s.ip + 2 ≤ t.ip ∧ t.ip ≤ s.mem.length) := by
  obtain ⟨i, u, hi, hu, rfl⟩ := step_next_effect h
  refine ⟨hu.length_eq, ?_⟩
  by_cases hhalt : i = .halt
  · exact .inl (hu.halted_iff.2 (.inr hhalt))
  · have hadv := two_le_advanceOf hhalt
    have hlen := advanceOf_le_length i
    have hfit := fetchInstr_fits hi
    rw [State.advance_ip, hu.ip_eq]
    exact .inr ⟨by omega, by omega⟩

/-- A run ends within `n` steps when the machine is Halted, or `n` steps of 2 cells each, and at least
one step, lead beyond memory. -/
theorem run_ends {n : Nat} {s : State}
    (h : s.halted = true ∨ 0 < n ∧ s.mem.length < s.ip + 2 * n) :
    (∃ t, run n s = .halted t) ∨ ∃ f, run n s = .faulted f := by
  induction n generalizing s with
  | zero =>
    have hhalt : s.halted = true := h.resolve_right fun h0 => absurd h0.1 (Nat.lt_irrefl 0)
    exact .inl ⟨s, run_of_halted hhalt 0⟩
  | succ n ih =>
    cases hrun : s.halted with
    | true => exact .inl ⟨s, run_of_halted hrun _⟩
    | false =>
      cases hs : step s with
      | next t =>
        rw [run_succ_of_next hrun hs]
        obtain ⟨hlen, hprog⟩ := step_next_progress hs
        have hbound : s.mem.length < s.ip + 2 * (n + 1) := by simpa [hrun] using h
        exact ih (hprog.imp id fun ⟨_, _⟩ => ⟨by omega, by omega⟩)
      | fault f => exact .inr ⟨f, run_succ_of_fault hrun hs n⟩
      | refused r => exact absurd hs (step_not_refused s r)

/-- Settles O36: `L div 2 + 1` steps of 2 cells each lead beyond memory from any `ip`. -/
theorem runEndsWithinBound : Obligations.RunEndsWithinBound := by
  intro s
  have hbound : s.mem.length < s.ip + 2 * stepBound s := by
    unfold stepBound
    omega
  exact run_ends (.inr ⟨Nat.succ_pos _, hbound⟩)

end Sys2Proof.Machine

/-!
PROOFS. The statements of spec/41_arithmetic.md. First the ALU's result, and that at most one Cell is
congruent to an integer modulo `2^W`; then what `Add` and `Multiply` share, for any binary operation:
each cause of an error, the swap of the sources, and the one cell written.
-/

namespace Sys2Proof.Machine

/-! ## The ALU's result -/

theorem wrapCell_congruent (W : Nat) (z : Int) : (2 ^ W : Int) ∣ z - wrapCell W z := by
  have h : z - wrapCell W z = (z + 2 ^ (W - 1)) - (z + 2 ^ (W - 1)) % 2 ^ W := by
    rw [wrapCell]
    ring
  exact h ▸ Int.dvd_self_sub_emod

/-- The Cell range holds each residue modulo `2^W` once. -/
theorem inCellRange_congruent_unique {W : Nat} {z r c : Int} (hW : 1 ≤ W) (hr : InCellRange W r)
    (hc : InCellRange W c) (hzr : (2 ^ W : Int) ∣ z - r) (hzc : (2 ^ W : Int) ∣ z - c) : c = r := by
  have hdvd : (2 ^ W : Int) ∣ c - r := by simpa using Int.dvd_sub hzr hzc
  have hpow : (2 ^ W : Int) = 2 * 2 ^ (W - 1) := (mul_pow_sub_one (by omega) 2).symm
  have hlt : |c - r| < (2 ^ W : Int) := by
    simp only [InCellRange, cellMin, cellMax] at hr hc
    rw [abs_lt]
    constructor <;> linarith
  exact sub_eq_zero.1 (Int.eq_zero_of_abs_lt_dvd hdvd hlt)

theorem aluCell_inRange {W : Nat} {pol : OverflowPolicy} {z : Int} (h : InCellRange W z) :
    aluCell ⟨W, pol⟩ z = some z := if_pos h

theorem aluCell_fault {W : Nat} {z : Int} (h : ¬ InCellRange W z) : aluCell ⟨W, .fault⟩ z = none :=
  if_neg h

theorem aluCell_wrap {W : Nat} {z : Int} (h : ¬ InCellRange W z) :
    aluCell ⟨W, .wrap⟩ z = some (wrapCell W z) := if_neg h

theorem aluResult_of_aluCell_none {s : State} {z : Int} (h : aluCell s.params z = none) :
    aluResult s z = .error (.arithmeticOverflow s) := by
  rw [aluResult, h]
  rfl

theorem aluResult_of_aluCell_some {s : State} {z r : Int} (h : aluCell s.params z = some r) :
    aluResult s z = .ok r := by
  rw [aluResult, h]

/-- Settles O45: out of range, `wrap` gives the wrapped Cell, the only one in its residue class. -/
theorem aluResultByPolicy : Obligations.AluResultByPolicy := by
  refine ⟨fun W pol z => aluCell_inRange, fun W z => aluCell_fault, fun W z hW h => ?_,
    fun s z => aluResult_of_aluCell_none, fun s z r => aluResult_of_aluCell_some,
    by decide, by decide, by decide, by decide, by decide⟩
  have hr := wrapCell_inCellRange hW z
  exact ⟨wrapCell W z, aluCell_wrap h, hr, wrapCell_congruent W z,
    fun c hc hzc => inCellRange_congruent_unique hW hr hc (wrapCell_congruent W z) hzc⟩

theorem aluFits_inRange {p : Params} {z : Int} (h : InCellRange p.cellWidth z) :
    aluFits p z = true := by
  rw [aluFits, decide_eq_true h, Bool.true_or]

theorem aluValue_inRange {p : Params} {z : Int} (h : InCellRange p.cellWidth z) :
    aluValue p z = z := if_pos h

/-! ## What `Add` and `Multiply` do, cause by cause -/

section Causes
variable {f : Int → Int → Int} {p1 p2 pDest : Parameter} {s : State}

theorem arithmetic_bad_first (h1 : s.sourceOk p1 = false) :
    arithmetic f p1 p2 pDest s = .error (.memoryOperationOutOfBounds p1.raw s) := by
  simp [arithmetic_eq, h1]

theorem arithmetic_bad_second (h1 : s.sourceOk p1 = true) (h2 : s.sourceOk p2 = false) :
    arithmetic f p1 p2 pDest s = .error (.memoryOperationOutOfBounds p2.raw s) := by
  simp [arithmetic_eq, h1, h2]

theorem arithmetic_overflow (h1 : s.sourceOk p1 = true) (h2 : s.sourceOk p2 = true)
    (hfit : aluFits s.params (f (s.operand p1) (s.operand p2)) = false) :
    arithmetic f p1 p2 pDest s = .error (.arithmeticOverflow s) := by
  simp [arithmetic_eq, h1, h2, hfit]

/-- With both sources and the result good, what is left is the store through the destination. -/
theorem arithmetic_store (h1 : s.sourceOk p1 = true) (h2 : s.sourceOk p2 = true)
    (hfit : aluFits s.params (f (s.operand p1) (s.operand p2)) = true) :
    arithmetic f p1 p2 pDest s =
      writeThrough s pDest (aluValue s.params (f (s.operand p1) (s.operand p2))) := by
  simp [arithmetic_eq, h1, h2, hfit]

theorem arithmetic_answers {a : Int} (h1 : s.sourceOk p1 = true) (h2 : s.sourceOk p2 = true)
    (hfit : aluFits s.params (f (s.operand p1) (s.operand p2)) = true)
    (hp : pDest = .position a) (ha : s.ValidAddress a) :
    arithmetic f p1 p2 pDest s =
      .ok (s.setMem (s.mem.write a.toNat (aluValue s.params (f (s.operand p1) (s.operand p2))))) :=
  (arithmetic_store h1 h2 hfit).trans (writeThrough_ok.2 ⟨a, hp, ha, rfl⟩)

theorem arithmetic_immediate_destination {x : Cell} (h1 : s.sourceOk p1 = true)
    (h2 : s.sourceOk p2 = true)
    (hfit : aluFits s.params (f (s.operand p1) (s.operand p2)) = true)
    (hp : pDest = .immediate x) :
    arithmetic f p1 p2 pDest s = .error (.writeParameterCannotBeImmediateMode x s) := by
  rw [arithmetic_store h1 h2 hfit, hp]
  rfl

theorem arithmetic_bad_destination {a : Int} (h1 : s.sourceOk p1 = true)
    (h2 : s.sourceOk p2 = true)
    (hfit : aluFits s.params (f (s.operand p1) (s.operand p2)) = true)
    (hp : pDest = .position a) (ha : ¬ s.ValidAddress a) :
    arithmetic f p1 p2 pDest s = .error (.memoryOperationOutOfBounds a s) := by
  rw [arithmetic_store h1 h2 hfit, hp]
  exact memWrite_invalid ha _

end Causes

/-- The canonical encoding of an instruction with three parameters (30_encoding R71, R77). -/
theorem encode_of_three_parameters {i : Instr} {p1 p2 p3 : Parameter}
    (h : i.parameters = [p1, p2, p3]) :
    encode i =
      [((i.opcode.number + 100 * p1.mode.digit + 1000 * p2.mode.digit + 10000 * p3.mode.digit : Nat) :
        Int), p1.raw, p2.raw, p3.raw] := by
  have hword : i.headerWord = i.opcode.number + 100 * p1.mode.digit + 1000 * p2.mode.digit +
      10000 * p3.mode.digit := by
    simp only [Instr.headerWord, h, List.map_cons, List.map_nil, modeString]
    ring
  rw [encode, hword, h]
  rfl

/-- Settles O39: `arithmetic`'s causes in order, with the sum as its result. -/
theorem addMeaning : Obligations.AddMeaning := fun _ _ _ _ =>
  ⟨fun h1 h2 hfit _ hp ha => congrArg (finish 4) (arithmetic_answers h1 h2 hfit hp ha),
    fun h1 => congrArg (finish 4) (arithmetic_bad_first h1),
    fun h1 h2 => congrArg (finish 4) (arithmetic_bad_second h1 h2),
    fun h1 h2 hfit => congrArg (finish 4) (arithmetic_overflow h1 h2 hfit),
    fun h1 h2 hfit _ hp => congrArg (finish 4) (arithmetic_immediate_destination h1 h2 hfit hp),
    fun h1 h2 hfit _ hp ha => congrArg (finish 4) (arithmetic_bad_destination h1 h2 hfit hp ha),
    encode_of_three_parameters rfl, rfl⟩

/-- Settles O40: `arithmetic`'s causes in order, with the product as its result. -/
theorem multiplyMeaning : Obligations.MultiplyMeaning := fun _ _ _ _ =>
  ⟨fun h1 h2 hfit _ hp ha => congrArg (finish 4) (arithmetic_answers h1 h2 hfit hp ha),
    fun h1 => congrArg (finish 4) (arithmetic_bad_first h1),
    fun h1 h2 => congrArg (finish 4) (arithmetic_bad_second h1 h2),
    fun h1 h2 hfit => congrArg (finish 4) (arithmetic_overflow h1 h2 hfit),
    fun h1 h2 hfit _ hp => congrArg (finish 4) (arithmetic_immediate_destination h1 h2 hfit hp),
    fun h1 h2 hfit _ hp ha => congrArg (finish 4) (arithmetic_bad_destination h1 h2 hfit hp ha),
    encode_of_three_parameters rfl, rfl, rfl⟩

/-! ## The sources swapped -/

section Swap
variable {f : Int → Int → Int} {p1 p2 pDest : Parameter} {s : State}

/-- With both sources good, the order of the operands does not matter. -/
theorem arithmetic_swap (hf : ∀ a b, f a b = f b a) (h1 : s.sourceOk p1 = true)
    (h2 : s.sourceOk p2 = true) : arithmetic f p1 p2 pDest s = arithmetic f p2 p1 pDest s := by
  simp [arithmetic_eq, h1, h2, hf (s.operand p1) (s.operand p2)]

/-- With a bad source, in whichever place, the error is one of bounds. -/
theorem arithmetic_bad_source (h : ¬ (s.sourceOk p1 = true ∧ s.sourceOk p2 = true)) :
    ∃ a, arithmetic f p1 p2 pDest s = .error (.memoryOperationOutOfBounds a s) := by
  cases h1 : s.sourceOk p1 with
  | false => exact ⟨_, arithmetic_bad_first h1⟩
  | true =>
    have h2 : s.sourceOk p2 = false := by simpa [h1] using h
    exact ⟨_, arithmetic_bad_second h1 h2⟩

theorem finish_arithmetic_swap_next {t : State} (hf : ∀ a b, f a b = f b a)
    (h : finish 4 (arithmetic f p1 p2 pDest s) = .next t) :
    finish 4 (arithmetic f p2 p1 pDest s) = .next t := by
  obtain ⟨u, hu, -⟩ := finish_next.1 h
  obtain ⟨h1, h2, -⟩ := arithmetic_ok hu
  exact arithmetic_swap hf h1 h2 ▸ h

theorem finish_arithmetic_swap_fault {e : Fault} (hf : ∀ a b, f a b = f b a)
    (h : finish 4 (arithmetic f p1 p2 pDest s) = .fault e) :
    ∃ g, finish 4 (arithmetic f p2 p1 pDest s) = .fault g ∧ g.code = e.code := by
  by_cases hok : s.sourceOk p1 = true ∧ s.sourceOk p2 = true
  · exact ⟨e, arithmetic_swap hf hok.1 hok.2 ▸ h, rfl⟩
  · obtain ⟨a, ha⟩ := arithmetic_bad_source (f := f) (pDest := pDest) hok
    obtain ⟨b, hb⟩ := arithmetic_bad_source (f := f) (pDest := pDest) (mt And.symm hok)
    obtain rfl : _ = e := Except.error.inj (ha.symm.trans (finish_fault.1 h))
    exact ⟨_, finish_fault.2 hb, rfl⟩

end Swap

/-- Settles O46: sum and product are commutative, and a bad source is an error of bounds in either
place. -/
theorem arithmeticCommutes : Obligations.ArithmeticCommutes := fun _ _ _ _ =>
  ⟨fun _ => ⟨⟨finish_arithmetic_swap_next Int.add_comm, finish_arithmetic_swap_next Int.add_comm⟩,
      ⟨finish_arithmetic_swap_next Int.mul_comm, finish_arithmetic_swap_next Int.mul_comm⟩⟩,
    fun _ => finish_arithmetic_swap_fault Int.add_comm,
    fun _ => finish_arithmetic_swap_fault Int.mul_comm⟩

/-! ## The one cell written -/

/-- One cell as both sources and destination: it is read twice and then overwritten by the result. -/
theorem finish_arithmetic_source_is_destination {f : Int → Int → Int} {s : State} {a : Int}
    (hwf : s.mem.wf = true) (ha : s.ValidAddress a)
    (hr : InCellRange s.params.cellWidth (f (s.mem.read a.toNat) (s.mem.read a.toNat))) :
    ∃ t, finish 4 (arithmetic f (.position a) (.position a) (.position a) s) = .next t ∧
      t.mem.read a.toNat = f (s.mem.read a.toNat) (s.mem.read a.toNat) := by
  have hok : s.sourceOk (.position a) = true := decide_eq_true ha
  refine ⟨_, congrArg (finish 4) (arithmetic_answers hok hok (aluFits_inRange hr) rfl ha), ?_⟩
  exact (Memory.read_write_same hwf a.toNat _).trans (aluValue_inRange hr)

/-- Settles O47, for the sum and for the product. -/
theorem sourceIsDestination : Obligations.SourceIsDestination := fun _ _ hwf ha =>
  ⟨finish_arithmetic_source_is_destination (f := fun x y => x + y) hwf ha,
    finish_arithmetic_source_is_destination (f := fun x y => x * y) hwf ha⟩

/-- `Add` and `Multiply` that answer write one cell, at their destination's address. -/
theorem finish_arithmetic_next {f : Int → Int → Int} {p1 p2 pDest : Parameter} {s t : State}
    (h : finish 4 (arithmetic f p1 p2 pDest s) = .next t) :
    ∃ a v, pDest = .position a ∧ t = (s.setMem (s.mem.write a.toNat v)).advance 4 := by
  obtain ⟨u, hu, rfl⟩ := finish_next.1 h
  obtain ⟨-, -, -, a, hp, -, rfl⟩ := arithmetic_ok hu
  exact ⟨a, _, hp, rfl⟩

/-- Settles O48: a write of one cell and the advance leave every other cell and field alone. -/
theorem arithmeticFrame : Obligations.ArithmeticFrame := by
  intro s t p1 p2 pDest h
  obtain ⟨c, v, rfl, rfl⟩ := h.elim finish_arithmetic_next finish_arithmetic_next
  refine ⟨rfl, rfl, rfl, rfl, rfl, fun a b hp hb => ?_⟩
  obtain rfl : c = a := Parameter.position.inj hp
  exact Memory.read_write_other s.mem hb v

end Sys2Proof.Machine

/-!
PROOFS. The statements of spec/42_io.md. First what `Input` and `Output` do, cause by cause, and what is
fetched from an image; from it the two meanings and the frames; last that a step conserves the source's
values and that `Input` alone consults the source (an effect is what `exec` answers, `Effect.exec_eq`).
-/

namespace Sys2Proof.Machine

/-! ## What `Input` and `Output` do, cause by cause -/

section Causes
variable {pDest pSrc : Parameter} {s : State} {v : Cell} {rest : List Cell}

theorem acquire_empty (hq : s.input = []) :
    acquire pDest s = .error (.inputAcquisitionFailed s) := by
  simp [acquire, inputFetch, hq, raise]

/-- With a value obtained and recorded, what is left is the store through the destination. -/
theorem acquire_store (hq : s.input = v :: rest) :
    acquire pDest s = writeThrough ((s.setInput rest).ioAppend (.userInput v)) pDest v := by
  simp [acquire, inputFetch, hq]

theorem exec_input_answers {a : Int} (hq : s.input = v :: rest) (hp : pDest = .position a)
    (ha : s.ValidAddress a) :
    exec (.input pDest) s =
      .next ((((s.setInput rest).ioAppend (.userInput v)).setMem (s.mem.write a.toNat v)).advance 2) :=
  congrArg (finish 2) ((acquire_store hq).trans (writeThrough_ok.2 ⟨a, hp, ha, rfl⟩))

theorem acquire_immediate_destination {x : Cell} (hq : s.input = v :: rest)
    (hp : pDest = .immediate x) :
    acquire pDest s = .error (.writeParameterCannotBeImmediateMode x
      ((s.setInput rest).ioAppend (.userInput v))) := by
  rw [acquire_store hq, hp]
  rfl

theorem acquire_bad_destination {a : Int} (hq : s.input = v :: rest) (hp : pDest = .position a)
    (ha : ¬ s.ValidAddress a) :
    acquire pDest s = .error (.memoryOperationOutOfBounds a
      ((s.setInput rest).ioAppend (.userInput v))) := by
  rw [acquire_store hq, hp]
  exact memWrite_invalid (s := (s.setInput rest).ioAppend (.userInput v)) ha v

theorem exec_output_answers (hp : s.sourceOk pSrc = true) (hv : s.operand pSrc = v) :
    exec (.output pSrc) s = .next ((s.ioAppend (.output v)).advance 2) := by
  have hemit : emit pSrc s = .ok (s.ioAppend (.output v)) := by simp [emit, resolve_eq, hp, hv]
  exact congrArg (finish 2) hemit

theorem emit_bad_source (hp : s.sourceOk pSrc = false) :
    emit pSrc s = .error (.memoryOperationOutOfBounds pSrc.raw s) := by
  simp [emit, resolve_eq, hp]

end Causes

/-- The canonical encoding of an instruction with one parameter (30_encoding R71, R77). -/
theorem encode_of_one_parameter {i : Instr} {p : Parameter} (h : i.parameters = [p]) :
    encode i = [((i.opcode.number + 100 * p.mode.digit : Nat) : Int), p.raw] := by
  simp [encode, Instr.headerWord, h, modeString]

/-! ## Memory that holds an image -/

theorem Memory.read_ofImage (P : List Cell) (a : Nat) :
    (Memory.ofImage P).read a = P.getD a unlistedCell := by
  simpa [Memory.read, Memory.ofImage] using lookupCell_imageCells 0 P a

/-- The stream from `a` on in a memory that holds an image is the image from `a` on. -/
theorem Memory.cellsFrom_ofImage (P : List Cell) (a : Nat) :
    (Memory.ofImage P).cellsFrom (P.length - a) a = P.drop a := by
  refine List.ext_getElem? fun k => ?_
  rw [List.getElem?_drop]
  by_cases hk : k < P.length - a
  · have hlt : a + k < P.length := by omega
    rw [cellsFrom_getElem? _ a hk, read_ofImage]
    simp [hlt]
  · have hge : P.length ≤ a + k := by omega
    rw [List.getElem?_eq_none (by simpa using hk), List.getElem?_eq_none hge]

/-- Fetching from a memory that holds an image is decoding the image from `ip` on. -/
theorem fetchInstr_ofImage {s : State} {P : List Cell} {i : Instr} {n : Nat}
    (hmem : s.mem = Memory.ofImage P) (hrun : s.halted = false) (hip : s.ip < P.length)
    (hd : decode (P.drop s.ip) = .ok (i, n)) : fetchInstr s = .ok i := by
  refine fetchInstr_ok.2 ⟨hrun, hmem ▸ hip, n, ?_⟩
  rw [hmem]
  exact (congrArg decode (Memory.cellsFrom_ofImage P s.ip)).trans hd

/-! ## `Input` -/

/-- Settles O41: `acquire`'s causes in order; in the worked example `Input` is fetched from the image
and the value overwrites its header. -/
theorem inputMeaning : Obligations.InputMeaning := by
  refine fun s pDest => ⟨fun _ _ _ => exec_input_answers,
    fun hq => congrArg (finish 2) (acquire_empty hq),
    fun _ _ _ hq hp => congrArg (finish 2) (acquire_immediate_destination hq hp),
    fun _ _ _ hq hp ha => congrArg (finish 2) (acquire_bad_destination hq hp ha),
    encode_of_one_parameter rfl, fun v => ?_⟩
  have hfetch : fetchInstr (construct defaultParams [3, 0, 4, 0, 99] [v]) =
      .ok (.input (.position 0)) := fetchInstr_ofImage rfl rfl (by decide : 0 < 5) rfl
  have hvalid : (construct defaultParams [3, 0, 4, 0, 99] [v]).ValidAddress 0 :=
    construct_validAddress.2 (by decide)
  exact (step_of_fetch hfetch).trans (exec_input_answers rfl rfl hvalid)

/-- Settles O49: the effect of `Input` moves one value and writes one cell. -/
theorem inputFrame : Obligations.InputFrame := by
  intro s t pDest h
  obtain ⟨u, hu, rfl⟩ := exec_next h
  cases hu with
  | @input v rest c hq hc =>
    refine ⟨rfl, rfl, rfl, ⟨v, hq, rfl⟩, fun a b hp hb => ?_⟩
    obtain rfl : c = a := Parameter.position.inj hp
    exact Memory.read_write_other s.mem hb v

/-! ## `Output` and `Halt` -/

/-- Settles O42: `emit`'s causes; in the worked example the `Output` is fetched from the image, whose
cell 0 holds the value. -/
theorem outputMeaning : Obligations.OutputMeaning := by
  refine fun s pSrc => ⟨fun hp => exec_output_answers hp rfl,
    fun hp => congrArg (finish 2) (emit_bad_source hp), ?_, encode_of_one_parameter rfl, fun v => ?_⟩
  · rintro v rfl
    exact ⟨rfl, rfl⟩
  · have hread : (Memory.ofImage [v, 0, 4, 0, 99]).read 0 = v := Memory.read_ofImage _ 0
    refine (step_of_fetch (i := .output (.position 0)) ?_).trans (exec_output_answers rfl hread)
    exact fetchInstr_ofImage rfl rfl (by decide : 2 < 5) rfl

/-- Settles O50: the effect of `Output` is one entry of the record, that of `Halt` the flag. -/
theorem outputAndHaltFrame : Obligations.OutputAndHaltFrame := by
  constructor
  · intro s t pSrc h
    obtain ⟨u, hu, rfl⟩ := exec_next h
    cases hu with
    | output => exact ⟨rfl, rfl, rfl, rfl, _, rfl⟩
  · intro s t h
    obtain rfl := exec_halt_next.1 h
    exact ⟨rfl, rfl, rfl, rfl, rfl⟩

/-! ## The source's values are conserved -/

@[simp] theorem inputValues_append_userInput (io : List RecordedIO) (v : Cell) :
    inputValues (io ++ [.userInput v]) = inputValues io ++ [v] := by
  simp [inputValues, RecordedIO.inputValue]

@[simp] theorem inputValues_append_output (io : List RecordedIO) (v : Cell) :
    inputValues (io ++ [.output v]) = inputValues io := by
  simp [inputValues, RecordedIO.inputValue]

/-- Consuming the source's front value and recording it moves it from the one to the other. -/
theorem inputValues_recordInput {s : State} {v : Cell} {rest : List Cell}
    (hq : s.input = v :: rest) :
    inputValues (s.io ++ [.userInput v]) ++ rest = inputValues s.io ++ s.input := by
  simp [hq]

theorem Effect.inputValues_eq {s u : State} {i : Instr} (h : Effect s i u) :
    inputValues u.io ++ u.input = inputValues s.io ++ s.input := by
  cases h with
  | add | multiply | halt => rfl
  | input hq _ => exact inputValues_recordInput hq
  | output => simp

/-- Settles O30: an effect and a failing step conserve the values recorded and those to come. -/
theorem inputConserved : Obligations.InputConserved := by
  rintro s t (h | ⟨f, h, rfl⟩)
  · obtain ⟨i, u, _, hu, rfl⟩ := step_next_effect h
    exact hu.inputValues_eq
  · rcases step_fault_left h with hf | ⟨_, v, rest, _, hq, hf⟩ <;> rw [hf]
    exact inputValues_recordInput hq

/-! ## The source is consulted by `Input` alone -/

/-- The converse of `exec_next`: under the conditions of its effect an instruction answers with it. -/
theorem Effect.exec_eq {s u : State} {i : Instr} (h : Effect s i u) :
    exec i s = .next (u.advance (advanceOf i)) := by
  cases h with
  | add h1 h2 hfit ha => exact congrArg (finish 4) (arithmetic_answers h1 h2 hfit rfl ha)
  | multiply h1 h2 hfit ha => exact congrArg (finish 4) (arithmetic_answers h1 h2 hfit rfl ha)
  | input hq ha => exact exec_input_answers hq rfl ha
  | output hp => exact exec_output_answers hp rfl
  | halt => rfl

section Source
variable {s u : State} {i : Instr} (q : List Cell)

/-- The conditions and the effect of an instruction other than `Input` do not depend on the source. -/
theorem Effect.setInput (h : Effect s i u) (hi : ∀ d, i ≠ .input d) :
    Effect (s.setInput q) i (u.setInput q) := by
  cases h with
  | add h1 h2 hfit ha => exact .add (s := s.setInput q) h1 h2 hfit ha
  | multiply h1 h2 hfit ha => exact .multiply (s := s.setInput q) h1 h2 hfit ha
  | input => exact absurd rfl (hi _)
  | output hp => exact .output (s := s.setInput q) hp
  | halt => exact .halt

theorem Effect.input_eq (h : Effect s i u) (hi : ∀ d, i ≠ .input d) : u.input = s.input := by
  cases h with
  | add | multiply | output | halt => rfl
  | input => exact absurd rfl (hi _)

end Source

/-- Settles O32: the same instruction is fetched with any source, and its effect is the same. -/
theorem onlyInputConsultsSource : Obligations.OnlyInputConsultsSource := by
  intro s t i q hi hne h
  obtain ⟨u, hu, rfl⟩ := exec_next ((step_of_fetch hi).symm.trans h)
  exact ⟨hu.input_eq hne,
    (step_of_fetch (fetchInstr_setInput_ok.2 hi)).trans (hu.setInput q hne).exec_eq⟩

end Sys2Proof.Machine

/-!
PROOFS. The statements of spec/43_halt.md. What decodes to `Halt` is settled by its header alone, since
it has no parameters (`decode_halt`); so a header at `ip` is all that a step needs to execute it.
-/

namespace Sys2Proof

/-- A header of `Halt` decodes whatever follows it, or nothing: no parameter word is pulled (30_encoding
R65). -/
theorem decode_halt {w : Cell} {ms : List Mode} (h : decodeHeader w = .ok (.halt, ms))
    (rest : List Cell) : decode (w :: rest) = .ok (.halt, 1) :=
  decode_ok.2 ⟨w, rest, .halt, ms, rfl, h, Nat.zero_le _, rfl, rfl⟩

/-- Opcode 99 with mode digits 0 and 1 only is a header of `Halt`. -/
theorem exists_decodeHeader_halt {w : Cell} (h0 : 0 ≤ w) (hop : w.toNat % 100 = 99)
    (hdigits : ∀ k, w.toNat / 100 / 10 ^ k % 10 ≤ 1) :
    ∃ ms, decodeHeader w = .ok (.halt, ms) := by
  obtain ⟨ms, hms⟩ := exists_decodeAll_iff.2 hdigits
  exact ⟨ms, decodeHeader_ok.2 ⟨h0, hop ▸ Opcode.ofNumber_number .halt, hms⟩⟩

namespace Machine

theorem exec_halt_answers (s : State) :
    exec .halt s = .next { s with halted := true, cycle := s.cycle + 1 } :=
  exec_halt_next.2 rfl

/-- A Running machine with a header of `Halt` at `ip` executes it, wherever in memory `ip` is. -/
theorem step_halt {s : State} {ms : List Mode} (hrun : s.halted = false)
    (hip : s.ip < s.mem.length) (h : decodeHeader (s.mem.read s.ip) = .ok (.halt, ms)) :
    step s = .next { s with halted := true, cycle := s.cycle + 1 } := by
  have hfetch : fetchInstr s = .ok .halt := by
    rw [fetchInstr_running hrun hip, decode_halt h]
  exact (step_of_fetch hfetch).trans (exec_halt_answers s)

/-- Settles O44: the last cell is a cell of memory. -/
theorem haltInLastCell : Obligations.HaltInLastCell :=
  fun _ _ hrun hlast => step_halt hrun (Nat.lt_of_succ_le hlast.le)

/-- Settles O43: the headers of `Halt` are those with digits 0 and 1, and 299 has another; in the worked
example the `Halt` is the image's last cell. -/
theorem haltMeaning : Obligations.HaltMeaning := by
  refine ⟨exec_halt_answers, rfl, fun w rest h0 hop hdigits => ?_, ?_, ?_⟩
  · obtain ⟨ms, hheader⟩ := exists_decodeHeader_halt h0 hop hdigits
    exact decode_halt hheader rest
  · exact decodeHeader_unknownMode (by decide) (Opcode.ofNumber_number .halt)
      (decodeAll_eq_none.2 ⟨0, by decide⟩)
  · exact haltInLastCell _ [] rfl rfl rfl

end Machine

end Sys2Proof

/-!
PROOFS. The statements of spec/60_exceptions.md. First when the decoder raises each of its errors; then
what a fetch raises and what an instruction raises, which share one kind only, so that the four kinds of
the guard and the decoder tell the phase that raised them; last the state a failing step leaves, and the
step from there.
-/

namespace Sys2Proof

/-! ## The decoder's errors -/

theorem Opcode.ofNumber_eq_none {n : Nat} :
    Opcode.ofNumber n = none ↔ ¬ (n = 1 ∨ n = 2 ∨ n = 3 ∨ n = 4 ∨ n = 99) := by
  rw [← ofNumber_isSome, Option.not_isSome_iff_eq_none]

/-- A header that does not decode: a bad sign or opcode, or else a digit that is no mode (30_encoding
R59). -/
theorem decodeHeader_error {w : Cell} {e : DecodeError} :
    decodeHeader w = .error e ↔
      (w < 0 ∨ Opcode.ofNumber (w.toNat % 100) = none) ∧ e = .unknownOpcode w ∨
        0 ≤ w ∧ (Opcode.ofNumber (w.toNat % 100)).isSome ∧ decodeAll (w.toNat / 100) = none ∧
          e = .unknownParameterMode w := by
  unfold decodeHeader
  by_cases hw : w < 0
  · simp [hw, not_le.2 hw, eq_comm (b := e)]
  · cases hop : Opcode.ofNumber (w.toNat % 100) with
    | none => simp [hw, eq_comm (b := e)]
    | some op => cases hms : decodeAll (w.toNat / 100) <;> simp [hw, not_lt.1 hw, eq_comm (b := e)]

theorem decodeHeader_unknownOpcode {w v : Cell} :
    decodeHeader w = .error (.unknownOpcode v) ↔
      v = w ∧ (w < 0 ∨ Opcode.ofNumber (w.toNat % 100) = none) := by
  simp [decodeHeader_error, and_comm]

theorem decodeHeader_unknownParameterMode {w v : Cell} :
    decodeHeader w = .error (.unknownParameterMode v) ↔
      v = w ∧ 0 ≤ w ∧ (Opcode.ofNumber (w.toNat % 100)).isSome ∧
        decodeAll (w.toNat / 100) = none := by
  simp only [decodeHeader_error, reduceCtorEq, and_false, false_or,
    DecodeError.unknownParameterMode.injEq]
  tauto

theorem decodeHeader_not_decodeFailed (w : Cell) :
    decodeHeader w ≠ .error .instructionDecodeFailed := by
  simp [decodeHeader_error]

/-- After a header that decodes, the one error is that too few words follow (30_encoding R65, R70). -/
theorem decode_cons_error {w : Cell} {rest : List Cell} {e : DecodeError} :
    decode (w :: rest) = .error e ↔
      decodeHeader w = .error e ∨
        (∃ op ms, decodeHeader w = .ok (op, ms) ∧ rest.length < op.paramCount) ∧
          e = .instructionDecodeFailed := by
  cases hw : decodeHeader w with
  | error d => simp [decode_of_header_error hw]
  | ok r =>
    obtain ⟨op, ms⟩ := r
    by_cases hlen : op.paramCount ≤ rest.length
    · simp [decode, hw, pullWords_eq, hlen]
    · simp [decode, hw, pullWords_eq, hlen, not_le.1 hlen, eq_comm (b := e)]

namespace Machine

/-! ## The error port -/

/-- Settles O51, by the table of the codes. -/
theorem errorCodesOfKinds : Obligations.ErrorCodesOfKinds := by
  refine fun s w a z => ⟨rfl, rfl, rfl, rfl, rfl, rfl, rfl, rfl, fun f => ⟨?_, rfl⟩⟩
  cases f <;> exact Nat.succ_ne_zero _

/-! ## What a fetch raises -/

/-- What the decoder is given from a Running machine with `ip < L`: the header, then the cells after it. -/
def State.fetchStream (s : State) : List Cell :=
  s.mem.read s.ip :: s.mem.cellsFrom (s.mem.length - (s.ip + 1)) (s.ip + 1)

theorem fetchInstr_halted {s : State} (h : s.halted = true) :
    fetchInstr s = .error (.stepWhileHalted s) := if_pos h

theorem fetchInstr_beyond {s : State} (hrun : s.halted = false) (hip : s.mem.length ≤ s.ip) :
    fetchInstr s = .error (.memoryOperationOutOfBounds s.ip s) :=
  fetchInstr_of_stream_error hrun
    (memStream_invalid fun h => absurd (Int.ofNat_lt.1 h.2) (not_lt.2 hip))

theorem fetchInstr_running_error {s : State} {f : Fault} (hrun : s.halted = false)
    (hip : s.ip < s.mem.length) :
    fetchInstr s = .error f ↔ ∃ e, f = decodeFault e s ∧ decode s.fetchStream = .error e := by
  rw [fetchInstr_running hrun hip, ← State.fetchStream]
  cases decode s.fetchStream with
  | ok r => simp
  | error e => simp [eq_comm]

/-- A fetch that fails: by the guard, by the bounds of memory, or by the decoder (40_step_dispatch R81
to R83). -/
theorem fetchInstr_error_iff {s : State} {f : Fault} :
    fetchInstr s = .error f ↔
      s.halted = true ∧ f = .stepWhileHalted s ∨
      s.halted = false ∧ s.mem.length ≤ s.ip ∧ f = .memoryOperationOutOfBounds s.ip s ∨
      s.halted = false ∧ s.ip < s.mem.length ∧
        ∃ e, f = decodeFault e s ∧ decode s.fetchStream = .error e := by
  cases hrun : s.halted with
  | true => simp [fetchInstr_halted hrun, eq_comm]
  | false =>
    rcases Nat.lt_or_ge s.ip s.mem.length with hip | hip
    · simp [fetchInstr_running_error hrun hip, hip]
    · simp [fetchInstr_beyond hrun hip, hip, eq_comm]

/-! ## Which phase raised an error -/

theorem arithmetic_error_code {g : Int → Int → Int} {p1 p2 pDest : Parameter} {s : State}
    {f : Fault} (h : arithmetic g p1 p2 pDest s = .error f) : f.code ∈ [3, 5, 6, 7] := by
  rcases arithmetic_error h with rfl | rfl | rfl | rfl | rfl <;> simp [Fault.code]

/-- The kinds that an instruction raises (60_exceptions R129). -/
theorem exec_fault_code {i : Instr} {s : State} {f : Fault} (h : exec i s = .fault f) :
    f.code ∈ [3, 5, 6, 7] := by
  cases i with
  | add p1 p2 pDest => exact arithmetic_error_code (finish_fault.1 h)
  | multiply p1 p2 pDest => exact arithmetic_error_code (finish_fault.1 h)
  | input pDest =>
    rcases acquire_error (finish_fault.1 h) with ⟨-, rfl⟩ | ⟨_, _, -, rfl | rfl⟩ <;>
      simp [Fault.code]
  | output pSrc =>
    obtain ⟨-, rfl⟩ := emit_error (finish_fault.1 h)
    simp [Fault.code]
  | halt => exact absurd h exec_halt_not_fault

/-- A step raises an error of any other kind exactly when its fetch does. -/
theorem step_fault_iff_fetchInstr {s : State} {f : Fault} (hf : f.code ∉ [3, 5, 6, 7]) :
    step s = .fault f ↔ fetchInstr s = .error f := by
  refine ⟨fun h => ?_, step_of_fetch_error⟩
  rcases step_cases s with ⟨i, -, hs⟩ | ⟨g, hg, hs⟩
  · exact absurd (exec_fault_code (hs.symm.trans h)) hf
  · obtain rfl : g = f := Host.Outcome.fault.inj (hs.symm.trans h)
    exact hg

/-- Settles O19: of the fetch's errors, the guard's alone is of this kind. -/
theorem stepWhileHaltedExactly : Obligations.StepWhileHaltedExactly := by
  refine fun s t => ⟨?_, rfl⟩
  rw [step_fault_iff_fetchInstr (by simp [Fault.code])]
  constructor
  · intro h
    rcases fetchInstr_error_iff.1 h with ⟨hhalt, hf⟩ | ⟨-, -, hf⟩ | ⟨-, -, e, hf, -⟩
    · exact ⟨hhalt, Fault.stepWhileHalted.inj hf⟩
    · cases hf
    · cases e <;> cases hf
  · rintro ⟨hhalt, rfl⟩
    exact fetchInstr_halted hhalt

/-- A step raises a kind of the decoder's exactly when a Running machine has a header to decode and the
decoder fails. -/
theorem step_decodeFault_iff {s : State} {f : Fault} (hf : f.code = 1 ∨ f.code = 2 ∨ f.code = 4) :
    step s = .fault f ↔
      s.halted = false ∧ s.ip < s.mem.length ∧
        ∃ e, f = decodeFault e s ∧ decode s.fetchStream = .error e := by
  rw [step_fault_iff_fetchInstr (by rcases hf with h | h | h <;> simp [h]), fetchInstr_error_iff]
  constructor
  · rintro (⟨-, rfl⟩ | ⟨-, -, rfl⟩ | h)
    · simp [Fault.code] at hf
    · simp [Fault.code] at hf
    · exact h
  · exact fun h => .inr (.inr h)

/-! ## Exactly when a step raises each error of the decoder -/

theorem unknownOpcode_eq_decodeFault {w : Cell} {s t : State} {e : DecodeError} :
    Fault.unknownOpcode w t = decodeFault e s ↔ e = .unknownOpcode w ∧ t = s := by
  cases e <;> simp [decodeFault, eq_comm]

theorem unknownParameterMode_eq_decodeFault {w : Cell} {s t : State} {e : DecodeError} :
    Fault.unknownParameterMode w t = decodeFault e s ↔ e = .unknownParameterMode w ∧ t = s := by
  cases e <;> simp [decodeFault, eq_comm]

theorem instructionDecodeFailed_eq_decodeFault {a : Nat} {s t : State} {e : DecodeError} :
    Fault.instructionDecodeFailed a t = decodeFault e s ↔
      e = .instructionDecodeFailed ∧ t = s ∧ a = s.ip := by
  cases e <;> simp [decodeFault, and_comm]

theorem fetchStream_unknownOpcode {s : State} {w : Cell} :
    decode s.fetchStream = .error (.unknownOpcode w) ↔
      w = s.mem.read s.ip ∧ (w < 0 ∨ Opcode.ofNumber (w.toNat % 100) = none) := by
  rw [State.fetchStream, decode_cons_error, decodeHeader_unknownOpcode]
  simp only [reduceCtorEq, and_false, or_false]
  exact and_congr_right fun hw => hw ▸ Iff.rfl

theorem fetchStream_unknownParameterMode {s : State} {w : Cell} :
    decode s.fetchStream = .error (.unknownParameterMode w) ↔
      w = s.mem.read s.ip ∧ 0 ≤ w ∧ (Opcode.ofNumber (w.toNat % 100)).isSome ∧
        decodeAll (w.toNat / 100) = none := by
  rw [State.fetchStream, decode_cons_error, decodeHeader_unknownParameterMode]
  simp only [reduceCtorEq, and_false, or_false]
  exact and_congr_right fun hw => hw ▸ Iff.rfl

/-- With `ip < L`, the cells after the header are too few when memory ends inside the instruction. -/
theorem fetchStream_decodeFailed {s : State} (hip : s.ip < s.mem.length) :
    decode s.fetchStream = .error .instructionDecodeFailed ↔
      ∃ op ms, decodeHeader (s.mem.read s.ip) = .ok (op, ms) ∧
        s.mem.length ≤ s.ip + op.paramCount := by
  have hlen (n : Nat) : s.mem.length - (s.ip + 1) < n ↔ s.mem.length ≤ s.ip + n := by omega
  simp [State.fetchStream, decode_cons_error, decodeHeader_not_decodeFailed, hlen]

/-- Settles O4: the header alone decides whether the decoder raises it. -/
theorem unknownOpcodeExactly : Obligations.UnknownOpcodeExactly := by
  intro s t w
  rw [step_decodeFault_iff (.inl rfl), ← Opcode.ofNumber_eq_none, ← fetchStream_unknownOpcode]
  simp only [unknownOpcode_eq_decodeFault, and_assoc, exists_eq_left]

/-- Settles O5: the opcode is good and `decode_all` fails on the digits. -/
theorem unknownParameterModeExactly : Obligations.UnknownParameterModeExactly := by
  intro s t w
  rw [step_decodeFault_iff (.inr (.inr rfl)), ← Opcode.ofNumber_isSome, ← decodeAll_eq_none,
    ← fetchStream_unknownParameterMode]
  simp only [unknownParameterMode_eq_decodeFault, and_assoc, exists_eq_left]

/-- Settles O6: an empty stream has no header; a step's stream has one, and `L - ip - 1` cells after
it. -/
theorem instructionDecodeFailedExactly : Obligations.InstructionDecodeFailedExactly := by
  refine ⟨rfl, fun s t a => ?_⟩
  rw [step_decodeFault_iff (.inr (.inl rfl))]
  refine and_congr_right fun _ => and_congr_right fun hip => ?_
  simp only [instructionDecodeFailed_eq_decodeFault, and_assoc, exists_eq_left,
    fetchStream_decodeFailed hip]

/-! ## The state a failing step leaves, and the step from there -/

/-- Settles O23: an `Input` fails with nothing obtained, or in the write of what it obtained; any other
failure leaves the state as it was. -/
theorem failingStepLeavesState : Obligations.FailingStepLeavesState := by
  intro s f h
  rcases step_fault_left h with hf | ⟨d, v, rest, hi, hq, hf⟩
  · refine .inl ⟨hf, fun d hi => ?_⟩
    rw [step_of_fetch hi] at h
    rcases acquire_error (finish_fault.1 h) with ⟨hq, -⟩ | ⟨v, rest, hq, hw⟩
    · exact hq
    · have hconsumed : f.left.input = rest := by rcases hw with rfl | rfl <;> rfl
      rw [hf, hq] at hconsumed
      exact absurd hconsumed (List.cons_ne_self v rest)
  · rw [step_of_fetch hi] at h
    have hw := writeThrough_error ((acquire_store hq).symm.trans (finish_fault.1 h))
    exact .inr ⟨d, v, rest, hi, hq, hf, hf ▸ hw⟩

/-- What is fetched depends neither on the source nor on the record. -/
theorem fetchInstr_recordInput_ok {s : State} {q : List Cell} {e : RecordedIO} {i : Instr} :
    fetchInstr ((s.setInput q).ioAppend e) = .ok i ↔ fetchInstr s = .ok i := by
  simp [fetchInstr_ok]

/-- A store that fails does so by its parameter and the length of memory alone. -/
theorem writeThrough_error_of_length_eq {s s' : State} {p : Parameter} {v v' : Cell} {f : Fault}
    (hlen : s'.mem.length = s.mem.length) (h : writeThrough s p v = .error f) :
    writeThrough s' p v' = .error (f.mapLeft fun _ => s') := by
  cases p with
  | immediate x =>
    obtain rfl := Except.error.inj h
    rfl
  | position a =>
    by_cases ha : s.ValidAddress a
    · simp [writeThrough, memWrite_valid ha] at h
    · have ha' : ¬ s'.ValidAddress a := by rwa [State.ValidAddress, hlen]
      obtain rfl := Except.error.inj ((memWrite_invalid ha v).symm.trans h)
      exact memWrite_invalid ha' v'

/-- Where a store through its destination fails, an `Input` fails in the same way, unless the source has
run out. -/
theorem exec_input_of_writeThrough_error {s : State} {d : Parameter} {v : Cell} {f : Fault}
    (h : writeThrough s d v = .error f) :
    ∃ g, exec (.input d) s = .fault g ∧
      ((g.code = f.code ∧ g.info = f.info) ∨ s.input = [] ∧ g = .inputAcquisitionFailed s) := by
  cases hq : s.input with
  | nil => exact ⟨_, congrArg (finish 2) (acquire_empty hq), .inr ⟨rfl, rfl⟩⟩
  | cons v' rest =>
    have hw := (acquire_store hq).trans (writeThrough_error_of_length_eq (s := s) rfl h)
    exact ⟨_, congrArg (finish 2) hw, .inl ⟨f.mapLeft_code _, f.mapLeft_info _⟩⟩

/-- Settles O34: a state left as it was fails as before; after a failing write the same `Input` is
fetched, and its destination is as bad as before. -/
theorem retryRaisesSameError : Obligations.RetryRaisesSameError := by
  intro s f h
  rcases step_fault_left h with hf | ⟨d, v, rest, hi, hq, hf⟩
  · exact ⟨f, hf.symm ▸ h, .inl ⟨rfl, rfl⟩⟩
  · rw [step_of_fetch hi] at h
    have hw := (acquire_store hq).symm.trans (finish_fault.1 h)
    obtain ⟨g, hg, hsame⟩ := exec_input_of_writeThrough_error hw
    rw [hf]
    exact ⟨g, (step_of_fetch (fetchInstr_recordInput_ok.2 hi)).trans hg,
      hsame.imp_right fun hempty => ⟨⟨d, hi⟩, hempty⟩⟩

end Machine

end Sys2Proof

/-!
PROOFS. The statements of spec/70_reset_and_hazards.md. First construction, which lays out the image;
then the loader, whose splitting at commas is the library's `List.splitOn`; last the driver's loop, by
what one turn of it can do (`run_succ_cases`).
-/

namespace Sys2Proof.Machine

/-! ## Construction -/

/-- Reading a constructed machine's memory reads the image. -/
theorem memRead_construct {p : Params} {P q : List Cell} {a : Nat} {v : Cell}
    (h : P[a]? = some v) : memRead (construct p P q) a = .ok v := by
  obtain ⟨ha, -⟩ := List.getElem?_eq_some_iff.1 h
  refine memRead_ok.2 ⟨construct_validAddress.2 ⟨by omega, by omega⟩, ?_⟩
  have hread : (construct p P q).mem.read a = P.getD a unlistedCell := Memory.read_ofImage P a
  rw [Int.toNat_natCast, hread, List.getD_eq_getElem?_getD, h, Option.getD_some]

/-- The first instruction of a constructed machine is the one its image begins with. -/
theorem fetchInstr_construct {p : Params} {P q : List Cell} {i : Instr} {n : Nat}
    (h : decode P = .ok (i, n)) : fetchInstr (construct p P q) = .ok i := by
  obtain ⟨w, rest, _, _, rfl, -⟩ := decode_ok.1 h
  exact fetchInstr_ofImage rfl rfl (Nat.succ_pos rest.length) h

/-- Settles O11: the fields are set as given, and the memory holds the image. -/
theorem constructionSetsState : Obligations.ConstructionSetsState := fun _ _ _ =>
  ⟨rfl, fun _ _ => memRead_construct, rfl, rfl, rfl, rfl, rfl, rfl, rfl,
    fun _ _ => fetchInstr_construct⟩

theorem imageLegal_iff {p : Params} {P : List Cell} :
    imageLegal p P = true ↔ 32 ≤ p.cellWidth ∧ P.length ≤ 2 ^ (p.cellWidth - 1) ∧
      ∀ c ∈ P, InCellRange p.cellWidth c := by
  simp [imageLegal, and_assoc]

theorem mem_consCell {a : Nat} {v : Cell} {rest : List (Nat × Cell)} {c : Nat × Cell}
    (h : c ∈ consCell a v rest) : c = (a, v) ∨ c ∈ rest := by
  unfold consCell at h
  split at h
  · exact .inr h
  · exact List.mem_cons.1 h

/-- The cells an image lays out are its elements. -/
theorem mem_imageCells {a : Nat} {P : List Cell} {c : Nat × Cell} (h : c ∈ imageCells a P) :
    c.2 ∈ P := by
  induction P generalizing a with
  | nil => cases h
  | cons v P ih =>
    rcases mem_consCell h with rfl | hc
    · exact List.mem_cons_self
    · exact List.mem_cons_of_mem v (ih hc)

/-- Settles O27: the memory holds the image in canonical form, and the record is empty. -/
theorem constructionHasInv : Obligations.ConstructionHasInv := by
  intro p P source hlegal hsource
  obtain ⟨hwidth, hlength, hcells⟩ := imageLegal_iff.1 hlegal
  exact
    { width := hwidth
      lengthBound := hlength
      memWf := Memory.wf_ofImage P
      ipBound := Nat.zero_le _
      memRange := fun c hc => hcells c.2 (mem_imageCells hc)
      ioRange := List.forall_mem_nil _
      inputRange := hsource }

/-! ## The loader -/

theorem splitAtChar_eq_splitOn (sep : Char) (t : List Char) :
    splitAtChar sep t = t.splitOn sep := by
  induction t with
  | nil => rw [splitAtChar, List.splitOn_nil]
  | cons c cs ih =>
    rw [splitAtChar, ih, List.splitOn_cons_eq_if_modifyHead]
    by_cases hc : c = sep
    · simp [hc]
    · cases hcs : cs.splitOn sep with
      | nil => exact absurd hcs (List.splitOn_ne_nil sep cs)
      | cons u us => simp [hc]

theorem loadText_eq (p : Params) (t : List Char) :
    loadText p t = (t.splitOn ',').filterMap (tokenCell p) := by
  rw [loadText, splitAtChar_eq_splitOn]

/-- The loader discards a token whose value is no Cell. -/
theorem tokenCell_inCellRange {p : Params} {t : List Char} {c : Cell}
    (h : tokenCell p t = some c) : InCellRange p.cellWidth c := by
  unfold tokenCell at h
  split at h
  case h_1 => cases h
  case h_2 z _ =>
    obtain ⟨hz, rfl⟩ : InCellRange p.cellWidth z ∧ z = c := by simpa using h
    exact hz

/-- Settles O17: the tokens are the pieces between commas, and `filterMap` takes them in order. -/
theorem loadTextByTokens : Obligations.LoadTextByTokens := by
  refine ⟨fun p t u => ?_, fun p t ht => ?_, fun p t c hc => ?_, by decide, by decide⟩
  · rw [loadText_eq, loadText_eq, loadText_eq, List.splitOn_append_cons_self,
      List.filterMap_append]
  · rw [loadText_eq, List.splitOn_eq_singleton ht]
    cases htok : tokenCell p t <;> simp [htok]
  · obtain ⟨u, -, hu⟩ := List.mem_filterMap.1 hc
    exact tokenCell_inCellRange hu

/-! ## The driver -/

/-- One turn of the driver's loop from a Running machine: it goes on from the next state, or ends with
the step's error. -/
theorem run_succ_cases {s : State} (hrun : s.halted = false) (n : Nat) :
    (∃ u, step s = .next u ∧ run (n + 1) s = run n u) ∨
      ∃ f, step s = .fault f ∧ run (n + 1) s = .faulted f := by
  cases hs : step s with
  | next u => exact .inl ⟨u, rfl, run_succ_of_next hrun hs n⟩
  | fault f => exact .inr ⟨f, rfl, run_succ_of_fault hrun hs n⟩
  | refused r => exact absurd hs (step_not_refused s r)

/-- The error that ends a run was raised by a step from a Running machine. -/
theorem run_faulted {n : Nat} {s : State} {f : Fault} (h : run n s = .faulted f) :
    ∃ u, u.halted = false ∧ step u = .fault f := by
  induction n generalizing s with
  | zero =>
    unfold run at h
    split at h <;> cases h
  | succ n ih =>
    cases hrun : s.halted with
    | true =>
      rw [run_of_halted hrun] at h
      cases h
    | false =>
      rcases run_succ_cases hrun n with ⟨u, -, hu⟩ | ⟨g, hg, hend⟩
      · exact ih (hu ▸ h)
      · obtain rfl : g = f := RunEnd.faulted.inj (hend.symm.trans h)
        exact ⟨s, hrun, hg⟩

/-- Settles O37: the guard raises `StepWhileHalted` from a Halted machine only. -/
theorem driverNeverStepsHalted : Obligations.DriverNeverStepsHalted := by
  intro n s t h
  obtain ⟨u, hrun, hu⟩ := run_faulted h
  obtain ⟨hhalt, -⟩ := (stepWhileHaltedExactly u t).1.1 hu
  simp [hrun] at hhalt

/-- A step that halts the machine leaves `ip` at the header of the `Halt` it executed, and memory as it
was. -/
theorem fetchInstr_after_halt {s t : State} (h : step s = .next t) (hhalt : t.halted = true) :
    fetchInstr { t with halted := false } = .ok .halt := by
  have hi : fetchInstr s = .ok .halt := (haltedOnlyByHalt.1 s t h).1 hhalt
  obtain rfl := exec_halt_next.1 ((step_of_fetch hi).symm.trans h)
  exact fetchInstr_ok.2 ⟨rfl, (fetchInstr_ok.1 hi).2⟩

theorem step_next_cycle {s t : State} (h : step s = .next t) : t.cycle = s.cycle + 1 := by
  obtain ⟨_, -, -, hcycle⟩ := okStepAdvances.1 s t h
  exact hcycle

/-- A run that ends Halted ends with the step that halts the machine, after `k < n` others. -/
theorem run_halted_last_step {n : Nat} {s t : State} (hrun : s.halted = false)
    (h : run n s = .halted t) :
    ∃ u k, k < n ∧ u.cycle = s.cycle + k ∧ step u = .next t ∧ t.halted = true := by
  induction n generalizing s with
  | zero => simp [run, hrun] at h
  | succ n ih =>
    rcases run_succ_cases hrun n with ⟨u, hs, hu⟩ | ⟨f, -, hend⟩
    · rw [hu] at h
      cases hhalt : u.halted with
      | true =>
        obtain rfl : u = t := RunEnd.halted.inj ((run_of_halted hhalt n).symm.trans h)
        exact ⟨s, 0, Nat.succ_pos n, rfl, hs, hhalt⟩
      | false =>
        obtain ⟨v, k, hk, hcycle, hlast⟩ := ih hhalt h
        have hstep := step_next_cycle hs
        exact ⟨v, k + 1, Nat.succ_lt_succ hk, by omega, hlast⟩
    · rw [hend] at h
      cases h

/-- Settles O38: the last step executed `Halt`, and each step counted one instruction. -/
theorem haltedRunEndsAtHalt : Obligations.HaltedRunEndsAtHalt := by
  intro n s t hrun h
  obtain ⟨u, k, hk, hbefore, hlast, hhalt⟩ := run_halted_last_step hrun h
  have hcycle := step_next_cycle hlast
  exact ⟨hhalt, fetchInstr_after_halt hlast hhalt, by omega, by omega⟩

end Sys2Proof.Machine

/-!
PROOFS. The concrete statements: the sample words of spec/30_encoding.md, which are canonical encodings,
and the state at reset, which is construction (spec/70_reset_and_hazards.md) on the empty image.
-/

namespace Sys2Proof.Machine

/-- Settles O2: each word is the canonical encoding of its instruction, the first with the cell 33 after
it. -/
theorem sampleWordsDecode : Obligations.SampleWordsDecode :=
  ⟨decodeInvertsEncode (.multiply (.position 4) (.immediate 3) (.position 4)) [33],
    decodeInvertsEncode (.add (.position 5) (.position 6) (.position 7)) [],
    decodeInvertsEncode (.add (.immediate (-5)) (.position 6) (.position 7)) [],
    decodeInvertsEncode (.add (.position 1) (.position 2) (.immediate 3)) [],
    decodeInvertsEncode (.input (.position 50)) [],
    decodeInvertsEncode (.input (.immediate 5)) [],
    decodeInvertsEncode (.output (.position 0)) [],
    decodeInvertsEncode (.output (.immediate (-7))) [],
    decodeInvertsEncode .halt []⟩

/-- Settles O12: the empty image lays out no cell, so the first fetch is already at `ip >= L`. -/
theorem resetIsEmptyConstruction : Obligations.ResetIsEmptyConstruction :=
  ⟨rfl, fetchBeyondMemoryRaises State.reset rfl (Nat.le_refl 0)⟩

/-- Settles O26: reset is construction on the empty image, which is legal. -/
theorem resetHasInv : Obligations.ResetHasInv := by
  have hlegal : imageLegal defaultParams [] = true := by decide
  rw [Obligations.ResetHasInv, resetIsEmptyConstruction.1]
  exact constructionHasInv defaultParams [] [] hlegal (List.forall_mem_nil _)

end Sys2Proof.Machine
